-- ==== Sys2Proof/Word.lean ====
section
/-! DEFINITION. The words of the machine: bytes, the program counter's word, register indices. -/

namespace Sys2Proof

/-- A memory cell, a register, an operand byte, an emitted value: 8 bits, unsigned
(00_scope.md R5; 10_state.md R11; 20_memory.md R37). -/
abbrev Byte := BitVec 8

/-- The program counter's word: 9 bits, unsigned (10_state.md R15). -/
abbrev PcWord := BitVec 9

/-- A register index that has passed the check of 10_state.md R13. -/
abbrev RegIndex := Fin 8

end Sys2Proof
end

