-- ==== Sys2Proof/Config.lean ====
section
/-! DEFINITION. The parameters of 00_scope.md R4. `CELL_BITS` and `XLEN` are the width of `Byte`, `PC_BITS` the width of
`PcWord`, `NREG` the bound of `RegIndex` (all in Word.lean); `NOPCODES` is the length of `opcodeTable` (Decode.lean);
`STRICT_FETCH_WINDOW = true` is the use of the checked `memRead` in `fetchWindow` (Machine/Fetch.lean). The spec leaves no
value free, so there is no opaque constant. -/

namespace Sys2Proof.Config

/-- `MEM_SIZE`: the number of memory cells. -/
abbrev memSize : Nat := 256

/-- `MEM_RESET`: what every cell holds after reset; also what an address that the cell list does not name reads as. -/
abbrev memReset : Byte := 0x00

/-- `SP_INDEX`: the register that is the stack pointer. -/
abbrev spIndex : RegIndex := 7

/-- `SP_RESET`: the stack pointer after reset. -/
abbrev spReset : Byte := 0xF4

/-- `GPR_RESET`: registers 0 to 6 after reset (the spec's decision D3; assumption log 3). -/
abbrev gprReset : Byte := 0x00

/-- `PC_RESET`: the program counter after reset. -/
abbrev pcReset : PcWord := 0

/-- `LOAD_BASE`: the address of the first byte of a program image (the spec's decision D14). -/
abbrev loadBase : Nat := 0

/-- `MAX_ILEN`: the longest instruction, in bytes. -/
abbrev maxIlen : Nat := 3

end Sys2Proof.Config
end

