-- ==== Sys2Proof/Machine/State.lean ====
section
/-! DEFINITION. The state of the machine, whole (10_state.md R10), its reset value (R21), and why a step can stop. -/

namespace Sys2Proof.Machine

/-- Memory: (address, byte) pairs in one canonical form (`Memory.wf` in Machine/Ops.lean): addresses strictly rising and
below 256, no entry equal to the reset byte 0x00, which is what an unlisted address reads as (20_memory.md R30, R31;
assumption log 14). -/
abbrev Memory := List Host.Cell

/-- The register file: eight bytes, R7 being the stack pointer itself and no copy (10_state.md R11, R14). -/
abbrev RegFile := Vector Byte 8

/-- What a fault report says happened (10_state.md R18). -/
inductive FaultCause where
  /-- code 0: no fault -/
  | none
  /-- code 1: a memory address outside 0..255 or a register index outside 0..7 (60_exceptions.md R111) -/
  | addressFault
  /-- code 2: the fetched byte is no opcode (R112) -/
  | unknownOpcode
  /-- code 3: reserved; no rule writes it (R113) -/
  | unsupportedAluOp
  deriving DecidableEq, Repr

/-- Which index an AddressFault is about (10_state.md R18). -/
inductive Space where
  /-- a memory address -/
  | mem
  /-- a register index -/
  | reg
  deriving DecidableEq, Repr

/-- The fault record (10_state.md R18). `addr` is the offending index itself, not reduced to 8 bits. -/
structure FaultRecord where
  cause : FaultCause
  pc : PcWord
  space : Space
  addr : Int
  byte : Byte
  deriving DecidableEq, Repr

/-- The record after reset: no fault, every other field at zero, `MEM` (10_state.md R21). -/
def FaultRecord.reset : FaultRecord :=
  { cause := .none, pc := 0, space := .mem, addr := 0, byte := 0 }

/-- What a step raises (00_scope.md R6); `Ops.takeFault` is what the machine then does (40_fetch_dispatch.md R75). -/
inductive Raise where
  /-- `raise AddressFault(space, a)`, `a` any integer -/
  | addressFault (space : Space) (addr : Int)
  /-- `raise UnknownOpcode(b)` -/
  | unknownOpcode (byte : Byte)
  deriving DecidableEq, Repr

/-- The whole state (10_state.md R10): memory, registers, program counter, halt latch, fault report, output. -/
structure State where
  mem : Memory
  x : RegFile
  pc : PcWord
  halted : Bool
  fault : FaultRecord
  out : List Byte
  deriving DecidableEq, Repr

/-- The state after reset (10_state.md R21). -/
def State.reset : State :=
  { mem := []
    x := #v[Config.gprReset, Config.gprReset, Config.gprReset, Config.gprReset,
            Config.gprReset, Config.gprReset, Config.gprReset, Config.spReset]
    pc := Config.pcReset
    halted := false
    fault := FaultRecord.reset
    out := [] }

/-- Why a step stops. The machine's own faults (AddressFault, UnknownOpcode) are NOT here: the machine records them and
enters Halted, which is a next state (40_fetch_dispatch.md R75). -/
inductive Fault where
  /-- Raised by `step` alone, in a state with `halted = 1`: no step exists there and no state changes
  (40_fetch_dispatch.md R70, R77). Safe (assumption log 1). -/
  | coreHalted
  deriving DecidableEq, Repr

/-- Why something has no meaning. -/
inductive Refusal where
  /-- Raised by an arm of `exec` whose instruction has no meaning yet; no arm is left. Safe. -/
  | notModelled (mnemonic : String)
  /-- Raised by the host's load (`launch`, Machine/HostInterface.lean), never by a step: a Loader write outside 0..255,
  which raised `raised`, makes a launch the spec gives no meaning (70_reset_and_hazards.md R132). Safe (assumption log 10). -/
  | loadOutsideMemory (raised : Raise)
  deriving DecidableEq, Repr

end Sys2Proof.Machine
end

