-- ==== Sys2Proof/Machine/Ops.lean ====
section
/-! DEFINITION. The named operations over memory, registers, stack pointer, program counter and output, and taking a fault. -/

namespace Sys2Proof.Machine

/-! ### Memory -/

/-- The byte at an address: the listed one, else the reset byte (20_memory.md R31). -/
def Memory.read : Memory → Nat → Byte
  | [], _ => Config.memReset
  | (b, v) :: rest, a => if a = b then v else Memory.read rest a

/-- The memory in which the cell at `a` holds `v` and every other cell is as before (20_memory.md R31), in canonical form:
storing the reset byte removes the entry. -/
def Memory.write : Memory → Nat → Byte → Memory
  | [], a, v => if v = Config.memReset then [] else [(a, v)]
  | (b, w) :: rest, a, v =>
    if a < b then (if v = Config.memReset then (b, w) :: rest else (a, v) :: (b, w) :: rest)
    else if a = b then (if v = Config.memReset then rest else (a, v) :: rest)
    else (b, w) :: Memory.write rest a v

/-- The canonical form from address `lo` up: addresses strictly rising, all below 256, no entry equal to the reset byte. -/
def Memory.wfFrom (lo : Nat) : Memory → Bool
  | [] => true
  | (a, v) :: rest =>
    decide (lo ≤ a) && decide (a < Config.memSize) && decide (v ≠ Config.memReset) && Memory.wfFrom (a + 1) rest

/-- The canonical form. -/
def Memory.wf (m : Memory) : Bool := Memory.wfFrom 0 m

/-- `MemRead(a, 1)` (20_memory.md R32): any integer `a`; outside 0..255 it raises, and never wraps. -/
def memRead (m : Memory) (a : Int) : Except Raise Byte :=
  match a with
  | .ofNat n => if n < Config.memSize then .ok (m.read n) else .error (.addressFault .mem a)
  | .negSucc _ => .error (.addressFault .mem a)

/-- `MemWrite(a, 1, v)` (20_memory.md R33): any integer `a`; outside 0..255 it raises and no cell changes. -/
def memWrite (m : Memory) (a : Int) (v : Byte) : Except Raise Memory :=
  match a with
  | .ofNat n => if n < Config.memSize then .ok (m.write n v) else .error (.addressFault .mem a)
  | .negSucc _ => .error (.addressFault .mem a)

/-! ### Registers -/

/-- Read register `i` (10_state.md R11, R12). -/
def State.reg (s : State) (i : RegIndex) : Byte := s.x[i]

/-- Write register `i`; none is hardwired and none is protected (10_state.md R12). -/
def State.setReg (s : State) (i : RegIndex) (v : Byte) : State := { s with x := s.x.set i v }

/-- The stack pointer is register 7, nothing else (10_state.md R14). -/
def State.sp (s : State) : Byte := s.reg Config.spIndex

/-- Write the stack pointer. -/
def State.setSp (s : State) (v : Byte) : State := s.setReg Config.spIndex v

/-! ### Program counter and output -/

/-- `zext_9(v)` (00_scope.md R6). -/
def zext9 (v : Byte) : PcWord := v.setWidth 9

/-- Write the program counter. -/
def State.setPc (s : State) (t : PcWord) : State := { s with pc := t }

/-- `pc <- pc + n`, an integer addition (10_state.md R16). In every step `pc ≤ 253` here, so 9 bits hold the sum; the model
reduces a sum above 511, which no step forms (assumption log 2). -/
def State.advance (s : State) (n : Nat) : State := s.setPc (BitVec.ofNat 9 (s.pc.toNat + n))

/-- CALL's return address `pc + 2`, a byte: in every step `pc ≤ 253`, so it fits (44_call_return.md R102; assumption log 2). -/
def State.returnAddr (s : State) : Byte := BitVec.ofNat 8 (s.pc.toNat + 2)

/-- `emit(v)` (10_state.md R19): append at the end. -/
def State.emit (s : State) (v : Byte) : State := { s with out := s.out ++ [v] }

/-- `halted <- 1` (10_state.md R17). -/
def State.halt (s : State) : State := { s with halted := true }

/-! ### The stack (43_stack.md R95, R98) -/

/-- The address a push stores to, `SP - 1`; with `SP = 0` that is -1, which raises and does not wrap (43_stack.md R98 a). -/
def spBelow (sp : Byte) : Except Raise Byte :=
  if sp.toNat < 1 then .error (.addressFault .mem (sp.toNat - 1)) else .ok (BitVec.ofNat 8 (sp.toNat - 1))

/-- The stack pointer after a pop, `v + 1`; 256 raises and does not wrap (43_stack.md R98 b). -/
def spAbove (v : Byte) : Except Raise Byte :=
  if v.toNat + 1 > 255 then .error (.addressFault .mem (v.toNat + 1)) else .ok (BitVec.ofNat 8 (v.toNat + 1))

/-- The first half of a push: `SP <- SP - 1` (43_stack.md R95). -/
def openSlot (s : State) : Except Raise State := do
  let a ← spBelow s.sp
  return s.setSp a

/-- The second half of a push: store at the new SP (43_stack.md R95). -/
def storeTop (s : State) (v : Byte) : Except Raise State := do
  let m ← memWrite s.mem s.sp.toNat v
  return { s with mem := m }

/-- The byte a pop loads, the one at SP; the cell keeps it (43_stack.md R95). -/
def loadTop (s : State) : Except Raise Byte := memRead s.mem s.sp.toNat

/-! ### Faults (40_fetch_dispatch.md R75, 60_exceptions.md R117, R118) -/

/-- The fault record a raise writes, with `p` the program counter at the start of the step (40_fetch_dispatch.md R75). -/
def faultRecord (p : PcWord) : Raise → FaultRecord
  | .addressFault space a => { cause := .addressFault, pc := p, space := space, addr := a, byte := 0 }
  | .unknownOpcode b => { cause := .unknownOpcode, pc := p, space := .mem, addr := 0, byte := b }

/-- Taking a fault: from the state at the START of the step, only `halted` and `fault` change. There is no handler, nothing
is saved, and there is no return from a fault (60_exceptions.md R117, R119). -/
def takeFault (s : State) (e : Raise) : State :=
  { s with halted := true, fault := faultRecord s.pc e }

/-- How a step begun in `s` ends: what it did, or, if it raised, the fault taken from `s`, every write of the step
discarded (40_fetch_dispatch.md R75). -/
def settle (s : State) (r : Except Raise State) : Host.Outcome State Fault Refusal :=
  match r with
  | .ok t => .next t
  | .error e => .next (takeFault s e)

/-- The numeric code of a cause (10_state.md R18). -/
def FaultCause.code : FaultCause → BitVec 2
  | .none => 0
  | .addressFault => 1
  | .unknownOpcode => 2
  | .unsupportedAluOp => 3

end Sys2Proof.Machine
end

