-- ==== Sys2Proof/Machine/Operands.lean ====
section
/-! DEFINITION. Operand forms. A register operand is the whole byte, checked (30_encoding.md R52); an immediate is the byte
itself (R53) and needs no operation; the only data addressing is through SP (`openSlot`, `storeTop`, `loadTop` in Ops). -/

namespace Sys2Proof.Machine

/-- `RegIdx(b)` (10_state.md R13): 0..7 name a register; any other byte raises. Nothing is masked. -/
def regIdx (b : Byte) : Except Raise RegIndex :=
  if h : b.toNat < 8 then .ok ⟨b.toNat, h⟩ else .error (.addressFault .reg b.toNat)

end Sys2Proof.Machine
end

