-- ==== Sys2Proof/Machine/Flags.lean ====
section
/-! DEFINITION. The ALU (42_alu.md R90, R93). There are NO flags to compute (10_state.md R20): results are reduced modulo
256 and the discarded part leaves no trace. -/

namespace Sys2Proof.Machine

/-- The operations the ALU has; only MULT and ADD drive it, each with its own (42_alu.md R90), so an unsupported operation
cannot be asked for (60_exceptions.md R113). -/
inductive AluOp where
  | add
  | mult
  deriving DecidableEq, Repr

/-- The exact unsigned sum or product (42_alu.md R93). -/
def aluExact (op : AluOp) (a b : Byte) : Nat :=
  match op with
  | .add => a.toNat + b.toNat
  | .mult => a.toNat * b.toNat

/-- The result: the exact value modulo 256 (42_alu.md R93). -/
def aluResult (op : AluOp) (a b : Byte) : Byte := BitVec.ofNat 8 (aluExact op a b)

/-- `apply(op, dest, src)` (42_alu.md R90): both registers are read, then the first is written. -/
def aluApply (op : AluOp) (d r : RegIndex) (s : State) : State :=
  s.setReg d (aluResult op (s.reg d) (s.reg r))

end Sys2Proof.Machine
end

