-- ==== Sys2Proof/Machine/Arithmetic.lean ====
section
/-! DEFINITION. MULT, ADD (42_alu.md). -/

namespace Sys2Proof.Machine

/-- What MULT and ADD share: the first index is checked before the second (42_alu.md R91, R92). -/
def aluInstr (op : AluOp) (op1 op2 : Byte) (s : State) : Host.Outcome State Fault Refusal :=
  settle s do
    let d ← regIdx op1
    let r ← regIdx op2
    return (aluApply op d r s).advance 3

/-- MULT (42_alu.md R91). -/
def execMult (op1 op2 : Byte) (s : State) : Host.Outcome State Fault Refusal := aluInstr .mult op1 op2 s

/-- ADD (42_alu.md R92). -/
def execAdd (op1 op2 : Byte) (s : State) : Host.Outcome State Fault Refusal := aluInstr .add op1 op2 s

end Sys2Proof.Machine
end

