-- ==== Sys2Proof/Machine/Control.lean ====
section
/-! DEFINITION. CALL, RET (44_call_return.md). -/

namespace Sys2Proof.Machine

/-- CALL (44_call_return.md R100): the return address comes from the unmodified `pc`; the push comes before the target
register is read, so `CALL R7` jumps to the new SP. -/
def execCall (op1 : Byte) (s : State) : Host.Outcome State Fault Refusal :=
  settle s do
    let r ← regIdx op1
    let s1 ← openSlot s
    let s2 ← storeTop s1 s.returnAddr
    return s2.setPc (zext9 (s2.reg r))

/-- RET (44_call_return.md R101). -/
def execRet (s : State) : Host.Outcome State Fault Refusal :=
  settle s do
    let t ← loadTop s
    let n ← spAbove s.sp
    return (s.setPc (zext9 t)).setSp n

end Sys2Proof.Machine
end

