-- ==== Sys2Proof/Machine/HaltLoadPrint.lean ====
section
/-! DEFINITION. HLT, LDI, PRN (41_halt_load_print.md). -/

namespace Sys2Proof.Machine

/-- HLT (41_halt_load_print.md R85): set the latch; `pc` stays at the HLT byte. -/
def execHlt (s : State) : Host.Outcome State Fault Refusal := settle s (.ok s.halt)

/-- LDI (41_halt_load_print.md R86). -/
def execLdi (op1 op2 : Byte) (s : State) : Host.Outcome State Fault Refusal :=
  settle s do
    let r ← regIdx op1
    return (s.setReg r op2).advance 3

/-- PRN (41_halt_load_print.md R87). -/
def execPrn (op1 : Byte) (s : State) : Host.Outcome State Fault Refusal :=
  settle s do
    let r ← regIdx op1
    return (s.emit (s.reg r)).advance 2

end Sys2Proof.Machine
end

