-- ==== Sys2Proof/Machine/Stack.lean ====
section
/-! DEFINITION. PUSH, POP (43_stack.md). -/

namespace Sys2Proof.Machine

/-- PUSH (43_stack.md R96): SP goes down first, so `PUSH R7` stores the new SP. -/
def execPush (op1 : Byte) (s : State) : Host.Outcome State Fault Refusal :=
  settle s do
    let r ← regIdx op1
    let s1 ← openSlot s
    let s2 ← storeTop s1 (s1.reg r)
    return s2.advance 2

/-- POP (43_stack.md R97): the register is written first, so `POP R7` ends with the popped byte plus 1. -/
def execPop (op1 : Byte) (s : State) : Host.Outcome State Fault Refusal :=
  settle s do
    let r ← regIdx op1
    let v ← loadTop s
    let s1 := s.setReg r v
    let n ← spAbove s1.sp
    return (s1.setSp n).advance 2

end Sys2Proof.Machine
end

