-- ==== Sys2Proof/Syntax.lean ====
section
/-! DEFINITION. The nine instructions (30_encoding.md R55) and their four formats (R51). -/

namespace Sys2Proof

/-- The instruction formats of 30_encoding.md R51. -/
inductive Format where
  /-- one byte, no operand -/
  | z
  /-- two bytes, one register -/
  | r
  /-- three bytes, a register and an immediate -/
  | ri
  /-- three bytes, two registers -/
  | rr
  deriving DecidableEq, Repr

/-- One constructor per row of the opcode table. Operands are the whole operand BYTES: a register operand above 7 still
selects the instruction, which then raises an AddressFault (30_encoding.md R52, 10_state.md R13). -/
inductive Instr where
  /-- halt -/
  | hlt
  /-- load the immediate `op2` into register `op1` -/
  | ldi (op1 op2 : Byte)
  /-- emit register `op1` -/
  | prn (op1 : Byte)
  /-- register `op1` times register `op2`, into `op1` -/
  | mult (op1 op2 : Byte)
  /-- register `op1` plus register `op2`, into `op1` -/
  | add (op1 op2 : Byte)
  /-- push register `op1` -/
  | push (op1 : Byte)
  /-- pop into register `op1` -/
  | pop (op1 : Byte)
  /-- call the address in register `op1` -/
  | call (op1 : Byte)
  /-- return -/
  | ret
  deriving DecidableEq, Repr

end Sys2Proof
end

