-- ==== Sys2Proof/Machine/Dispatch.lean ====
section
/-! DEFINITION. The meaning of each instruction, one arm each. -/

namespace Sys2Proof.Machine

def exec (i : Instr) (s : State) : Host.Outcome State Fault Refusal :=
  match i with
  | .hlt => Sys2Proof.Machine.execHlt s
  | .ldi op1 op2 => Sys2Proof.Machine.execLdi op1 op2 s
  | .prn op1 => Sys2Proof.Machine.execPrn op1 s
  | .mult op1 op2 => Sys2Proof.Machine.execMult op1 op2 s
  | .add op1 op2 => Sys2Proof.Machine.execAdd op1 op2 s
  | .push op1 => Sys2Proof.Machine.execPush op1 s
  | .pop op1 => Sys2Proof.Machine.execPop op1 s
  | .call op1 => Sys2Proof.Machine.execCall op1 s
  | .ret => Sys2Proof.Machine.execRet s

end Sys2Proof.Machine
end

