-- ==== Sys2Proof/WellFormed.lean ====
section
/-! DEFINITION. Which instructions can be written down: every register operand names one of R0 to R7
(30_encoding.md R60: "`rr`, `dd`, `ss` are the register index as a byte (`00`..`07`)"). An instruction that is not well
formed can still be fetched and executed; it faults (10_state.md R13). -/

namespace Sys2Proof

/-- The operand byte names a register. -/
def registerByte (b : Byte) : Bool := decide (b.toNat ≤ 7)

/-- Every register operand names a register; LDI's immediate is unrestricted (30_encoding.md R53). -/
def Instr.wellFormed : Instr → Bool
  | .hlt => true
  | .ldi op1 _ => registerByte op1
  | .prn op1 => registerByte op1
  | .mult op1 op2 => registerByte op1 && registerByte op2
  | .add op1 op2 => registerByte op1 && registerByte op2
  | .push op1 => registerByte op1
  | .pop op1 => registerByte op1
  | .call op1 => registerByte op1
  | .ret => true

end Sys2Proof
end

