-- ==== Sys2Proof/Decode.lean ====
section
/-! DEFINITION. Decoding, encoding and the assembly notation (30_encoding.md). -/

namespace Sys2Proof

/-- A row of the opcode table: byte 0 of an instruction selects the row when `byte0 &&& mask = pattern`. -/
structure OpcodeRow where
  mnemonic : String
  pattern : Byte
  mask : Byte
  format : Format
  length : Nat
  deriving DecidableEq, Repr

/-- The opcode map of 30_encoding.md R55, in the source's row order. A constant, not state (10_state.md R22). -/
def opcodeTable : List OpcodeRow :=
  [ ⟨"HLT", 0x01, 0xFF, .z, 1⟩, ⟨"LDI", 0x82, 0xFF, .ri, 3⟩, ⟨"PRN", 0x47, 0xFF, .r, 2⟩,
    ⟨"MULT", 0xA2, 0xFF, .rr, 3⟩, ⟨"ADD", 0xA0, 0xFF, .rr, 3⟩, ⟨"PUSH", 0x45, 0xFF, .r, 2⟩,
    ⟨"POP", 0x46, 0xFF, .r, 2⟩, ⟨"CALL", 0x50, 0xFF, .r, 2⟩, ⟨"RET", 0x11, 0xFF, .z, 1⟩ ]

/-- The nine defined opcode bytes. -/
def definedOpcodes : List Byte := opcodeTable.map OpcodeRow.pattern

/-- Why bytes are no instruction. -/
inductive DecodeError where
  /-- the first byte is none of the nine opcodes (30_encoding.md R57) -/
  | unknownOpcode (byte : Byte)
  /-- fewer bytes were given than the instruction has; the machine, which always reads a window of three, never
  meets this (assumption log 11) -/
  | truncated
  deriving DecidableEq, Repr

/-- The decoder on a fetch window (40_fetch_dispatch.md R72, R79): the instruction is selected by equality on the whole
opcode byte, never by sub-fields (30_encoding.md R56); bytes the instruction does not own are ignored (R59). -/
def decodeWindow (opc op1 op2 : Byte) : Except DecodeError Instr :=
  if opc = 0x01 then .ok .hlt
  else if opc = 0x82 then .ok (.ldi op1 op2)
  else if opc = 0x47 then .ok (.prn op1)
  else if opc = 0xA2 then .ok (.mult op1 op2)
  else if opc = 0xA0 then .ok (.add op1 op2)
  else if opc = 0x45 then .ok (.push op1)
  else if opc = 0x46 then .ok (.pop op1)
  else if opc = 0x50 then .ok (.call op1)
  else if opc = 0x11 then .ok .ret
  else .error (.unknownOpcode opc)

/-- The opcode byte (30_encoding.md R55). -/
def Instr.opcode : Instr → Byte
  | .hlt => 0x01
  | .ldi _ _ => 0x82
  | .prn _ => 0x47
  | .mult _ _ => 0xA2
  | .add _ _ => 0xA0
  | .push _ => 0x45
  | .pop _ => 0x46
  | .call _ => 0x50
  | .ret => 0x11

/-- The operand bytes, in ascending address order (30_encoding.md R50, R51). -/
def Instr.operands : Instr → List Byte
  | .hlt => []
  | .ldi op1 op2 => [op1, op2]
  | .prn op1 => [op1]
  | .mult op1 op2 => [op1, op2]
  | .add op1 op2 => [op1, op2]
  | .push op1 => [op1]
  | .pop op1 => [op1]
  | .call op1 => [op1]
  | .ret => []

/-- The format (30_encoding.md R51, R55). -/
def Instr.format : Instr → Format
  | .hlt => .z
  | .ldi _ _ => .ri
  | .prn _ => .r
  | .mult _ _ => .rr
  | .add _ _ => .rr
  | .push _ => .r
  | .pop _ => .r
  | .call _ => .r
  | .ret => .z

/-- The length of each format in bytes (30_encoding.md R51). -/
def Format.length : Format → Nat
  | .z => 1
  | .r => 2
  | .ri => 3
  | .rr => 3

/-- The length in bytes, a function of the opcode alone (30_encoding.md R54). -/
def Instr.length (i : Instr) : Nat := i.format.length

/-- The bytes of an instruction: the opcode, then its operands (30_encoding.md R50, R60). -/
def encode (i : Instr) : List Byte := i.opcode :: i.operands

/-- Decode the instruction at the front of a list of bytes and return the rest of the list: total, and rejecting by name. -/
def decode : List Byte → Except DecodeError (Instr × List Byte)
  | [] => .error .truncated
  | opc :: tail =>
    match decodeWindow opc (tail.getD 0 0) (tail.getD 1 0) with
    | .error e => .error e
    | .ok i =>
      if tail.length + 1 < i.length then .error .truncated
      else .ok (i, tail.drop (i.length - 1))

/-- Byte `k` of a word numbered as the opcode table numbers it, with every bit from `nbits` up taken as 0. -/
def tableByte (nbits w k : Nat) : Byte := BitVec.ofNat 8 (w % 2 ^ nbits / 2 ^ (8 * k))

/-- The instruction the decoder reads from a table word: byte 0 of the word is the byte at `pc`, byte 1 the byte at `pc+1`,
byte 2 the byte at `pc+2` (30_encoding.md R50; assumption log 9). -/
def decodeTableWord (nbits w : Nat) : Option Instr :=
  match decodeWindow (tableByte nbits w 0) (tableByte nbits w 1) (tableByte nbits w 2) with
  | .ok i => some i
  | .error _ => none

/-- A register operand in assembly text: `R` and the index in decimal (30_encoding.md R60). -/
def registerText (b : Byte) : String := "R" ++ toString b.toNat

/-- The assembly notation of an instruction (30_encoding.md R60; immediates in decimal; assumption log 17). -/
def Instr.assembly : Instr → String
  | .hlt => "HLT"
  | .ldi op1 op2 => "LDI " ++ registerText op1 ++ "," ++ toString op2.toNat
  | .prn op1 => "PRN " ++ registerText op1
  | .mult op1 op2 => "MULT " ++ registerText op1 ++ "," ++ registerText op2
  | .add op1 op2 => "ADD " ++ registerText op1 ++ "," ++ registerText op2
  | .push op1 => "PUSH " ++ registerText op1
  | .pop op1 => "POP " ++ registerText op1
  | .call op1 => "CALL " ++ registerText op1
  | .ret => "RET"

end Sys2Proof
end

