-- ==== Sys2Proof/Machine/Fetch.lean ====
section
/-! DEFINITION. The fetch window and the table lookup (40_fetch_dispatch.md R71, R72). -/

namespace Sys2Proof.Machine

/-- The three bytes every step reads (00_scope.md R8 "fetch window"). -/
structure Window where
  opc : Byte
  op1 : Byte
  op2 : Byte
  deriving DecidableEq, Repr

/-- The window read, in the order `pc+1`, `pc+2`, `pc`, each a checked read whatever the instruction
(40_fetch_dispatch.md R71; the spec's decision D1). -/
def fetchWindow (s : State) : Except Raise Window := do
  let op1 ← memRead s.mem (s.pc.toNat + 1)
  let op2 ← memRead s.mem (s.pc.toNat + 2)
  let opc ← memRead s.mem s.pc.toNat
  return { opc := opc, op1 := op1, op2 := op2 }

/-- Look the opcode byte up; an absent one raises `UnknownOpcode` (40_fetch_dispatch.md R72). -/
def dispatch (w : Window) : Except Raise Instr :=
  match decodeWindow w.opc w.op1 w.op2 with
  | .ok i => .ok i
  | .error _ => .error (.unknownOpcode w.opc)

/-- The instruction a step is to run, or what it raises before any instruction runs. -/
def fetchInstr (s : State) : Except Raise Instr := do
  let w ← fetchWindow s
  dispatch w

/-- Store three bytes at `a`, `a+1`, `a+2`. -/
def storeWindow (m : Memory) (a : Nat) (w : Window) : Memory :=
  ((m.write a w.opc).write (a + 1) w.op1).write (a + 2) w.op2

/-- The address at which a step can fetch: the program counter where its window is in memory, else the reset vector. -/
def placeAddr (s : State) : PcWord := if s.pc.toNat + 2 < Config.memSize then s.pc else Config.pcReset

end Sys2Proof.Machine
end

