-- ==== Sys2Proof/Machine/Step.lean ====
section
/-! DEFINITION. One step of the machine (40_fetch_dispatch.md R79). -/

namespace Sys2Proof.Machine

/-- One step (40_fetch_dispatch.md R70, R79): none when halted; else the window read, the lookup and the instruction; a raise
before the instruction is settled like one inside it (R75). -/
def step (s : State) : Host.Outcome State Fault Refusal :=
  if s.halted then .fault .coreHalted
  else
    match fetchInstr s with
    | .ok i => exec i s
    | .error e => settle s (.error e)

/-- The state with an instruction placed where the next step fetches: its bytes at `pc` (at the reset vector 0 where `pc` has
no window in memory), and the core Running. It stands for the host's load (assumption log 13). -/
def State.withFetchWord (s : State) (nbits w : Nat) : State :=
  { s with
    pc := placeAddr s
    halted := false
    mem := storeWindow s.mem (placeAddr s).toNat
      { opc := tableByte nbits w 0, op1 := tableByte nbits w 1, op2 := tableByte nbits w 2 } }

end Sys2Proof.Machine
end

