-- ==== Sys2Proof/Machine/HostInterface.lean ====
section
/-! DEFINITION. What the outside world may do to the machine, and what it sees (70_reset_and_hazards.md R130 to R135). None of
this is state of the core (10_state.md R10). -/

namespace Sys2Proof.Machine

/-- One write of the load phase: memory only (70_reset_and_hazards.md R132, R134). -/
def hostWrite (addr data : Byte) (s : State) : State := { s with mem := s.mem.write addr.toNat data }

/-- The Loader from address `a` on: each byte is a checked `MemWrite` at the next address (70_reset_and_hazards.md R132). -/
def loadBytes (a : Nat) (image : List Byte) (m : Memory) : Except Raise Memory :=
  match image with
  | [] => .ok m
  | b :: rest => do
    let m' ← memWrite m a b
    loadBytes (a + 1) rest m'

/-- The launch state of a program image: reset, then the image from `LOAD_BASE` on; a write outside 0..255 makes this no launch
(70_reset_and_hazards.md R132, R133). -/
def launch (image : List Byte) : Host.Outcome State Fault Refusal :=
  match loadBytes Config.loadBase image State.reset.mem with
  | .ok m => .next { State.reset with mem := m }
  | .error e => .refused (.loadOutsideMemory e)

/-- The phases before and from the first step; the phase "ended" is `run` with `halted = 1` (70_reset_and_hazards.md R134). -/
inductive Phase where
  | load
  | run
  deriving DecidableEq, Repr

/-- The core and the phase the host has brought it to. -/
structure System where
  phase : Phase
  core : State
  deriving DecidableEq, Repr

/-- What the host can do: the inputs of 70_reset_and_hazards.md R135. -/
inductive HostInput where
  /-- `reset` -/
  | reset
  /-- `load_we` with `load_addr` and `load_data` -/
  | load (addr data : Byte)
  /-- `run` high for one step -/
  | run
  deriving DecidableEq, Repr

/-- The system after reset: the reset state, in the load phase. -/
def System.reset : System := { phase := .load, core := State.reset }

/-- What one host input does: reset at any time gives the reset state (R130); a load is honoured only in the load phase and is
ignored after it (R135); `run` ends the load phase and takes one step (R134, R135; assumption log 8). -/
def System.react (y : System) (input : HostInput) : Host.Outcome System Fault Refusal :=
  match input, y.phase with
  | .reset, _ => .next System.reset
  | .load addr data, .load => .next { y with core := hostWrite addr data y.core }
  | .load _ _, .run => .next y
  | .run, _ =>
    match step y.core with
    | .next t => .next { phase := .run, core := t }
    | .fault r => .fault r
    | .refused r => .refused r

/-- The output ports of the core (70_reset_and_hazards.md R135): `fault_addr` is 10 bits, two's complement; `fault_space` is
carried as the tag itself, the spec giving it no bit encoding (assumption log 15). -/
structure Ports where
  halted : Bool
  faultCause : BitVec 2
  faultSpace : Space
  faultAddr : BitVec 10
  faultPc : BitVec 9
  faultByte : BitVec 8
  deriving DecidableEq, Repr

/-- The output ports of a state. -/
def State.ports (s : State) : Ports :=
  { halted := s.halted
    faultCause := s.fault.cause.code
    faultSpace := s.fault.space
    faultAddr := BitVec.ofInt 10 s.fault.addr
    faultPc := s.fault.pc
    faultByte := s.fault.byte }

/-- `out_valid` with `out_data` in the step from `s` to `t`: the byte that step emitted, if it emitted one (R135). -/
def outPulse (s t : State) : Option Byte := t.out[s.out.length]?

/-- The lines the host prints, one shortest decimal numeral per emitted value, without the line terminator, which the spec
does not fix (41_halt_load_print.md R87; assumption log 12). -/
def printedLines (s : State) : List String := s.out.map fun v => toString v.toNat

end Sys2Proof.Machine
end

