-- ==== Sys2Proof/Safety.lean ====
section
/-! DEFINITION. The terms claims use: where a step can fetch, how a run ends, the invariant of 10_state.md R23, the fault
priority of 60_exceptions.md R116, and the reachable states. -/

namespace Sys2Proof.Machine

/-- The fetch window is in memory: the three reads of 40_fetch_dispatch.md R71 succeed. -/
abbrev FetchInRange (s : State) : Prop := s.pc.toNat ≤ 253

/-- A clean halt: an HLT was executed (40_fetch_dispatch.md R78). -/
abbrev CleanHalt (s : State) : Prop := s.halted = true ∧ s.fault.cause = .none

/-- A faulted end (40_fetch_dispatch.md R78). -/
abbrev FaultedEnd (s : State) : Prop := s.halted = true ∧ s.fault.cause ≠ .none

/-- The state after `AddressFault(space, a)` in a step begun in `s`: only the latch and the record differ, as
40_fetch_dispatch.md R75 lists them. -/
def afterAddressFault (s : State) (space : Space) (a : Int) : State :=
  { s with halted := true, fault := { cause := .addressFault, pc := s.pc, space := space, addr := a, byte := 0 } }

/-- A fault record as the rules write it (10_state.md R18): the fields a cause does not use are at their reset value, the
offending index is one that 60_exceptions.md R111 lists, and the unsupported ALU operation never stands in it (R113). -/
def FaultRecord.Consistent (f : FaultRecord) : Prop :=
  match f.cause with
  | .none => f = FaultRecord.reset
  | .addressFault =>
    f.byte = 0 ∧ f.pc.toNat ≤ 256 ∧
      ((f.space = .mem ∧ (f.addr = -1 ∨ f.addr = 256 ∨ f.addr = 257)) ∨ (f.space = .reg ∧ 8 ≤ f.addr ∧ f.addr ≤ 255))
  | .unknownOpcode => f.pc.toNat ≤ 253 ∧ f.space = .mem ∧ f.addr = 0 ∧ f.byte ∉ definedOpcodes
  | .unsupportedAluOp => False

/-- What holds in every reachable state (10_state.md R23), with memory in its canonical form and the fault record as the
rules write it. (Cells and registers are bytes by their type.) -/
structure Inv (s : State) : Prop where
  memWf : s.mem.wf = true
  pcRange : s.pc.toNat ≤ 256
  runningNoFault : s.halted = false → s.fault.cause = .none
  faultHalts : s.fault.cause ≠ .none → s.halted = true ∧ s.pc = s.fault.pc
  faultConsistent : s.fault.Consistent

/-- The states a run can reach: the host's load writes on the reset state, in any order, then steps
(70_reset_and_hazards.md R132, R133; 00_scope.md R7). -/
inductive Reachable : State → Prop where
  | reset : Reachable State.reset
  | load (writes : List (Byte × Byte)) :
      Reachable (writes.foldl (fun s w => hostWrite w.1 w.2 s) State.reset)
  | step {s t : State} : Reachable s → step s = .next t → Reachable t

/-- The opcodes whose first operand is a register (30_encoding.md R55). -/
def registerOpcodes : List Byte := [0x82, 0x47, 0xA2, 0xA0, 0x45, 0x46, 0x50]

/-- The fault a step begun in `s` reports, read off the priority list of 60_exceptions.md R116 and not off the instructions:
the first of its seven conditions that holds. -/
def firstFault (s : State) : Option Raise :=
  let p := s.pc.toNat
  let opc := s.mem.read p
  let op1 := s.mem.read (p + 1)
  let op2 := s.mem.read (p + 2)
  if p + 1 > 255 then some (.addressFault .mem (p + 1))
  else if p + 2 > 255 then some (.addressFault .mem (p + 2))
  else if opc ∉ definedOpcodes then some (.unknownOpcode opc)
  else if opc ∈ registerOpcodes ∧ op1.toNat > 7 then some (.addressFault .reg op1.toNat)
  else if (opc = 0xA2 ∨ opc = 0xA0) ∧ op2.toNat > 7 then some (.addressFault .reg op2.toNat)
  else if (opc = 0x45 ∨ opc = 0x50) ∧ s.x[7] = 0 then some (.addressFault .mem (-1))
  else if (opc = 0x11 ∨ opc = 0x46 ∧ op1 ≠ 7) ∧ s.x[7] = 255 then some (.addressFault .mem 256)
  else if opc = 0x46 ∧ op1 = 7 ∧ s.mem.read s.x[7].toNat = 255 then some (.addressFault .mem 256)
  else none

end Sys2Proof.Machine
end

