-- ==== Sys2Proof/Certificates/Slice0/Obligations.lean ====
section
/-! DEFINITION. The statements for the provers. Each docstring names the rule of spec/ it formalises. Statements whose clauses
stand in rules that carry a mark of the spec's own ("[decision: ...]" or "[derived: ...]") are listed with basis "derived". A
premise `s.mem.wf = true` or `Inv s` is the invariant that `StepKeepsInvariant` and `ReachableStatesMeetInvariant` state.
Wherever a statement says that an address fault inside an instruction leaves memory, registers, `pc` and output as they were
(`afterAddressFault`, `takeFault`, the fault cases of the frames), that is the spec's decision D6 (assumption log 4); for the
unknown opcode the spec's source requires it outright (60_exceptions.md R118). -/

open Sys2Proof Sys2Proof.Machine

/-! ### Reset, launch and the host -/

/-- 10_state.md section 7 (R21): the state after reset. Registers 0 to 6 are the spec's decision D3 (assumption log 3); `halted`,
`fault` and `out` its decision D4. -/
def Obligations.ResetStateValues : Prop :=
  (∀ a : Nat, a < 256 → memRead State.reset.mem a = .ok 0x00) ∧
  State.reset.x[7] = 0xF4 ∧ State.reset.pc = 0 ∧
  (∀ r : RegIndex, r ≠ 7 → State.reset.x[r] = 0x00) ∧
  State.reset.halted = false ∧ State.reset.out = [] ∧
  State.reset.fault = { cause := .none, pc := 0, space := .mem, addr := 0, byte := 0 }

/-- 70_reset_and_hazards.md section 2 (R133): the launch state is memory as the host chose it, zeros where it wrote nothing, and
every other piece of state at its reset value; every image that fits in memory has one. That image byte `a` stands in cell `a`
(`LOAD_BASE = 0`) is the spec's decision D14 (assumption log 10). -/
def Obligations.LaunchStateIsImageOverReset : Prop :=
  ∀ image : List Byte, image.length ≤ 256 →
    ∃ s, launch image = .next s ∧
      (∀ a : Nat, a < 256 → s.mem.read a = image.getD a 0x00) ∧
      s = { State.reset with mem := s.mem }

/-- 70_reset_and_hazards.md section 2 (R132, decision D14): a Loader write outside 0..255 makes no launch; the first such
address is 256. -/
def Obligations.LongImageIsRefused : Prop :=
  ∀ image : List Byte, 256 < image.length → launch image = .refused (.loadOutsideMemory (.addressFault .mem 256))

/-- 70_reset_and_hazards.md R131: the reset vector is address 0; the first step after launch fetches its window at 1, 2, 0. -/
def Obligations.FirstStepFetchesAtZero : Prop :=
  ∀ (image : List Byte) (s : State), launch image = .next s →
    s.pc = 0 ∧
    fetchWindow s = .ok { opc := s.mem.read 0, op1 := s.mem.read 1, op2 := s.mem.read 2 }

/-- 70_reset_and_hazards.md section 3 (R130, R134, R135, decision D16): reset at any time gives the reset state; the load port
writes one memory cell and nothing else in the load phase, and nothing at all once the run has begun; `run` is one step. That a
load out of phase is ignored is the reading of assumption log 8. -/
def Obligations.HostInputsByPhase : Prop :=
  ∀ y : System,
    y.react .reset = .next { phase := .load, core := State.reset } ∧
    (y.phase = .run → ∀ addr data, y.react (.load addr data) = .next y) ∧
    (y.phase = .load → y.core.mem.wf = true → ∀ addr data : Byte,
      ∃ t, y.react (.load addr data) = .next { phase := .load, core := t } ∧
        t.mem.read addr.toNat = data ∧ (∀ a : Nat, a ≠ addr.toNat → t.mem.read a = y.core.mem.read a) ∧
        t = { y.core with mem := t.mem }) ∧
    (∀ t, step y.core = .next t → y.react .run = .next { phase := .run, core := t })

/-- 70_reset_and_hazards.md section 3 (R135, decision D16): in every state that meets the invariant the 10-bit two's complement
port `fault_addr` carries the reported index exactly, and the other ports carry their fields. -/
def Obligations.PortsCarryTheFaultRecord : Prop :=
  ∀ s : State, Inv s →
    s.ports.faultAddr.toInt = s.fault.addr ∧ s.ports.faultPc = s.fault.pc ∧ s.ports.faultByte = s.fault.byte ∧
    s.ports.faultSpace = s.fault.space ∧ s.ports.halted = s.halted ∧
    (s.ports.faultCause = 0 ↔ s.fault.cause = .none) ∧ (s.ports.faultCause = 1 ↔ s.fault.cause = .addressFault) ∧
    (s.ports.faultCause = 2 ↔ s.fault.cause = .unknownOpcode) ∧ s.ports.faultCause ≠ 3

/-! ### Encoding -/

/-- 30_encoding.md sections 1 to 3: the bytes of an instruction decode to it, with every operand byte at every value; what
follows it is left over, and bytes of the window it does not own are ignored; bytes that lie at `pc` in memory are fetched as
that instruction. -/
def Obligations.DecodeOfEncodeIsTheInstruction : Prop :=
  ∀ (i : Instr) (rest : List Byte) (pad1 pad2 : Byte),
    decode (encode i ++ rest) = .ok (i, rest) ∧
    decodeWindow i.opcode (i.operands.getD 0 pad1) (i.operands.getD 1 pad2) = .ok i ∧
    ∀ s : State, FetchInRange s → (∀ k : Nat, k < i.length → s.mem.read (s.pc.toNat + k) = (encode i).getD k 0) →
      fetchInstr s = .ok i

/-- 30_encoding.md sections 1 to 3: what decodes is the encoding of what it decodes to, so each encoding has one instruction. -/
def Obligations.EncodeOfDecodeIsTheBytes : Prop :=
  ∀ (bytes rest : List Byte) (i : Instr), decode bytes = .ok (i, rest) → bytes = encode i ++ rest

/-- 30_encoding.md section 3 (R55): words written out bit by bit, one of each format, decode to the instruction they stand for. -/
def Obligations.WrittenOutWordsDecode : Prop :=
  decode [0b00000001] = .ok (.hlt, []) ∧
  decode [0b10000010, 0b00000011, 0b11111111] = .ok (.ldi 3 255, []) ∧
  decode [0b10100010, 0b00000000, 0b00000001] = .ok (.mult 0 1, []) ∧
  decode [0b01010000, 0b00000010] = .ok (.call 2, []) ∧
  decode [0b10000011, 0b00000000, 0b00000001] = .error (.unknownOpcode 0b10000011)

/-- 30_encoding.md R54: the length is a function of the opcode byte alone, and a byte that is none of the nine has none: it
faults and `pc` does not move. -/
def Obligations.LengthByOpcode : Prop :=
  (∀ (opc op1 op2 : Byte) (i : Instr), decodeWindow opc op1 op2 = .ok i →
    (encode i).length = i.length ∧
    (opc ∈ ([0x01, 0x11] : List Byte) ∧ i.length = 1 ∨
      opc ∈ ([0x47, 0x45, 0x46, 0x50] : List Byte) ∧ i.length = 2 ∨
      opc ∈ ([0x82, 0xA2, 0xA0] : List Byte) ∧ i.length = 3)) ∧
  (∀ s : State, s.halted = false → FetchInRange s →
    s.mem.read s.pc.toNat ∉ ([0x01, 0x11, 0x47, 0x45, 0x46, 0x50, 0x82, 0xA2, 0xA0] : List Byte) →
    ∃ t, step s = .next t ∧ FaultedEnd t ∧ t.pc = s.pc)

/-! ### Memory -/

/-- 20_memory.md section 2 (R32, R33): a checked write inside 0..255 is seen by a checked read of that cell and changes no other
cell; outside, both raise with the address as it is, never reduced. Every byte value is stored as it is. That the write keeps the
canonical form, the clause `m'.wf = true`, is about the model's own form of memory, its choice (assumption log 14). -/
def Obligations.CheckedReadsAndWrites : Prop :=
  ∀ m : Memory, m.wf = true → ∀ (a : Int) (v : Byte),
    ((0 ≤ a ∧ a ≤ 255) →
      memRead m a = .ok (m.read a.toNat) ∧
      ∃ m', memWrite m a v = .ok m' ∧ m'.wf = true ∧ memRead m' a = .ok v ∧
        ∀ c : Int, c ≠ a → memRead m' c = memRead m c) ∧
    (¬ (0 ≤ a ∧ a ≤ 255) →
      memRead m a = .error (.addressFault .mem a) ∧ memWrite m a v = .error (.addressFault .mem a))

/-- The model's own form of memory, its choice (assumption log 14): in canonical form, memories that read alike are equal data. -/
def Obligations.CanonicalMemoriesReadingAlikeAreEqual : Prop :=
  ∀ m m' : Memory, m.wf = true → m'.wf = true → (∀ a : Nat, a < 256 → m.read a = m'.read a) → m = m'

/-! ### The step -/

/-- 40_fetch_dispatch.md R70: a step is taken if and only if `halted = 0`; a step that is taken completes, in the instruction's
effect or in a fault the machine records. -/
def Obligations.StepTakenIffRunning : Prop :=
  ∀ s : State, (∃ t, step s = .next t) ↔ s.halted = false

/-- 40_fetch_dispatch.md section 6 (R77, decision D17): a halted core is stuck. That the model answers the fault `coreHalted`
there is its own choice (assumption log 1). Nothing else stops a step, and no step is refused. -/
def Obligations.HaltedCoreIsStuck : Prop :=
  ∀ s : State, (step s = .fault .coreHalted ↔ s.halted = true) ∧ ∀ r, step s ≠ .refused r

/-- 40_fetch_dispatch.md R72: after the window read, the instruction the table gives is performed in this state (nothing is
added around it), and an absent byte raises UnknownOpcode. -/
def Obligations.StepRunsTheDecodedInstruction : Prop :=
  ∀ s : State, s.halted = false → FetchInRange s →
    (∀ i : Instr, decodeWindow (s.mem.read s.pc.toNat) (s.mem.read (s.pc.toNat + 1)) (s.mem.read (s.pc.toNat + 2)) = .ok i →
      step s = exec i s) ∧
    (s.mem.read s.pc.toNat ∉ ([0x01, 0x82, 0x47, 0xA2, 0xA0, 0x45, 0x46, 0x50, 0x11] : List Byte) →
      step s = .next (takeFault s (.unknownOpcode (s.mem.read s.pc.toNat))))

/-- 40_fetch_dispatch.md section 2 (R71, decision D1): the outcome of the window read where it leaves memory, whatever the
bytes there are. -/
def Obligations.FetchWindowFaults : Prop :=
  ∀ s : State, s.halted = false →
    (s.pc.toNat = 254 → step s = .next (afterAddressFault s .mem 256)) ∧
    (255 ≤ s.pc.toNat → step s = .next (afterAddressFault s .mem (s.pc.toNat + 1)))

/-- 30_encoding.md R57 and 60_exceptions.md R112: each of the 247 bytes that are no opcode faults with UnknownOpcode, reporting
the `pc` and the byte; `pc` does not advance, and no further instruction is executed. -/
def Obligations.UnknownOpcodeFaults : Prop :=
  ((List.range 256).filter fun n =>
    decide (BitVec.ofNat 8 n ∉ ([0x01, 0x82, 0x47, 0xA2, 0xA0, 0x45, 0x46, 0x50, 0x11] : List Byte))).length = 247 ∧
  ∀ s : State, s.halted = false → FetchInRange s →
    s.mem.read s.pc.toNat ∉ ([0x01, 0x82, 0x47, 0xA2, 0xA0, 0x45, 0x46, 0x50, 0x11] : List Byte) →
    ∃ t, step s = .next t ∧ t.halted = true ∧ t.fault.cause = .unknownOpcode ∧ t.fault.pc = s.pc ∧
      t.fault.byte = s.mem.read s.pc.toNat ∧ t.mem = s.mem ∧ t.x = s.x ∧ t.pc = s.pc ∧ t.out = s.out ∧
      ∀ u, step t ≠ .next u

/-- 10_state.md section 3 (R16): how each instruction changes `pc`; the sums are integer sums, and any fault leaves `pc` unchanged.
That CALL's target is the register read after the push, which is its value after the step, is the spec's decision D13 (assumption
log 5; it shows with `CALL R7`), and that an address fault inside an instruction leaves `pc`, its decision D6 (log 4). -/
def Obligations.PcAfterEachInstruction : Prop :=
  ∀ s t : State, Inv s → step s = .next t →
    (t.fault.cause ≠ .none → t.pc = s.pc) ∧
    ∀ i : Instr, fetchInstr s = .ok i → t.fault.cause = .none →
      match i with
      | .hlt => t.pc = s.pc
      | .ldi _ _ => t.pc.toNat = s.pc.toNat + 3
      | .prn _ => t.pc.toNat = s.pc.toNat + 2
      | .mult _ _ => t.pc.toNat = s.pc.toNat + 3
      | .add _ _ => t.pc.toNat = s.pc.toNat + 3
      | .push _ => t.pc.toNat = s.pc.toNat + 2
      | .pop _ => t.pc.toNat = s.pc.toNat + 2
      | .call op1 => ∃ _ : op1.toNat < 8, t.pc.toNat = t.x[op1.toNat].toNat
      | .ret => t.pc.toNat = (s.mem.read s.x[7].toNat).toNat

/-! ### Each instruction: what it does, and that it completes -/

/-- 41_halt_load_print.md, section HLT (R85): HLT sets the latch and changes nothing else, and no further step happens; only an HLT
ends a run without a fault. That at 254 or 255 an HLT byte does not halt cleanly but faults rests on the checked fetch window, the
spec's decision D1 (assumption log 16). -/
def Obligations.HltHalts : Prop :=
  encode .hlt = [0b00000001] ∧
  (∀ s : State, FetchInRange s →
    exec .hlt s = .next { s with halted := true } ∧ ∀ u, step { s with halted := true } ≠ .next u) ∧
  (∀ s t : State, Inv s → step s = .next t → CleanHalt t → fetchInstr s = .ok .hlt) ∧
  (∀ s : State, s.halted = false → (s.pc.toNat = 254 ∨ s.pc.toNat = 255) →
    ∃ t, step s = .next t ∧ FaultedEnd t ∧ t.fault.cause = .addressFault)

/-- 41_halt_load_print.md, section LDI (R86): LDI writes the immediate as it is into the register, and `pc` moves by 3; a first
operand above 7 raises AddressFault(REG, op1), unmasked by the spec's decision D8 (assumption log 16), and then nothing is written
and `pc` does not move (R75, decision D6, log 4). LDI followed by PRN of the same register outputs the immediate. -/
def Obligations.LdiLoadsItsImmediate : Prop :=
  ∀ (op1 op2 : Byte) (s : State), FetchInRange s →
    encode (.ldi op1 op2) = [0b10000010, op1, op2] ∧
    (∀ h : op1.toNat < 8, ∃ t, exec (.ldi op1 op2) s = .next t ∧
      t.x = s.x.set op1.toNat op2 ∧ t.pc.toNat = s.pc.toNat + 3 ∧
      t.mem = s.mem ∧ t.halted = s.halted ∧ t.fault = s.fault ∧ t.out = s.out) ∧
    (7 < op1.toNat → exec (.ldi op1 op2) s = .next (afterAddressFault s .reg op1.toNat)) ∧
    (op1.toNat < 8 → ∃ t u, exec (.ldi op1 op2) s = .next t ∧ exec (.prn op1) t = .next u ∧ u.out = s.out ++ [op2])

/-- 41_halt_load_print.md, section PRN (R87, decision D15): PRN emits the register's value once, at the end of the output, and
changes nothing else but `pc`, by 2; a first operand above 7 faults (decision D8, log 16) and nothing is emitted (decision D6,
assumption log 4). -/
def Obligations.PrnEmitsItsRegister : Prop :=
  ∀ (op1 : Byte) (s : State), FetchInRange s →
    (∀ h : op1.toNat < 8, ∃ t, exec (.prn op1) s = .next t ∧
      t.out = s.out ++ [s.x[op1.toNat]] ∧ outPulse s t = some s.x[op1.toNat] ∧ t.pc.toNat = s.pc.toNat + 2 ∧
      t.mem = s.mem ∧ t.x = s.x ∧ t.halted = s.halted ∧ t.fault = s.fault) ∧
    (7 < op1.toNat → exec (.prn op1) s = .next (afterAddressFault s .reg op1.toNat))

/-- 42_alu.md, sections MULT, ADD and Arithmetic laws (R91, R92, R93; decisions D7, D11): the product and the sum of the two
registers, both read first, modulo 256, into the first; `pc` moves by 3; nothing else changes. -/
def Obligations.MultAndAddModulo256 : Prop :=
  ∀ (op1 op2 : Byte) (s : State) (h1 : op1.toNat < 8) (h2 : op2.toNat < 8), FetchInRange s →
    (∃ (t : State) (v : Byte), exec (.mult op1 op2) s = .next t ∧ t.x = s.x.set op1.toNat v ∧
      v.toNat = s.x[op1.toNat].toNat * s.x[op2.toNat].toNat % 256 ∧ t.pc.toNat = s.pc.toNat + 3 ∧
      t.mem = s.mem ∧ t.halted = s.halted ∧ t.fault = s.fault ∧ t.out = s.out) ∧
    (∃ (t : State) (v : Byte), exec (.add op1 op2) s = .next t ∧ t.x = s.x.set op1.toNat v ∧
      v.toNat = (s.x[op1.toNat].toNat + s.x[op2.toNat].toNat) % 256 ∧ t.pc.toNat = s.pc.toNat + 3 ∧
      t.mem = s.mem ∧ t.halted = s.halted ∧ t.fault = s.fault ∧ t.out = s.out)

/-- 43_stack.md, section PUSH (R96, decision D13): SP goes down by one, then the register, read after that, is stored at the new
SP (so `PUSH R7` stores the new SP); no other cell and no other register changes; `pc` moves by 2. -/
def Obligations.PushStoresBelowSp : Prop :=
  ∀ (op1 : Byte) (s : State) (h : op1.toNat < 8), FetchInRange s → s.mem.wf = true → s.x[7] ≠ 0 →
    ∃ t, exec (.push op1) s = .next t ∧
      t.x = s.x.set 7 t.x[7] ∧ t.x[7].toNat + 1 = s.x[7].toNat ∧
      t.mem.read t.x[7].toNat = t.x[op1.toNat] ∧
      (∀ a : Nat, a ≠ t.x[7].toNat → t.mem.read a = s.mem.read a) ∧
      t.pc.toNat = s.pc.toNat + 2 ∧ t.halted = s.halted ∧ t.fault = s.fault ∧ t.out = s.out

/-- 43_stack.md, section POP (R97, decision D13): the byte at SP goes to the register, then SP goes up by one (so `POP R7` ends
with the popped byte plus 1); memory keeps the popped cell; `pc` moves by 2. -/
def Obligations.PopLoadsFromSp : Prop :=
  ∀ (op1 : Byte) (s : State) (h : op1.toNat < 8), FetchInRange s →
    (op1 ≠ 7 → s.x[7] ≠ 255 →
      ∃ t, exec (.pop op1) s = .next t ∧
        t.x = (s.x.set op1.toNat (s.mem.read s.x[7].toNat)).set 7 t.x[7] ∧ t.x[7].toNat = s.x[7].toNat + 1 ∧
        t.mem = s.mem ∧ t.pc.toNat = s.pc.toNat + 2 ∧ t.halted = s.halted ∧ t.fault = s.fault ∧ t.out = s.out) ∧
    (op1 = 7 → s.mem.read s.x[7].toNat ≠ 255 →
      ∃ t, exec (.pop op1) s = .next t ∧
        t.x = s.x.set 7 t.x[7] ∧ t.x[7].toNat = (s.mem.read s.x[7].toNat).toNat + 1 ∧
        t.mem = s.mem ∧ t.pc.toNat = s.pc.toNat + 2 ∧ t.halted = s.halted ∧ t.fault = s.fault ∧ t.out = s.out)

/-- 44_call_return.md, section CALL (R100, R102; decision D13): the return address `pc + 2`, untruncated, is stored at the new
SP, then `pc` is the register's value read after that (so `CALL R7` jumps to the new SP). -/
def Obligations.CallPushesReturnAddressAndJumps : Prop :=
  ∀ (op1 : Byte) (s : State) (h : op1.toNat < 8), FetchInRange s → s.mem.wf = true → s.x[7] ≠ 0 →
    ∃ t, exec (.call op1) s = .next t ∧
      t.x = s.x.set 7 t.x[7] ∧ t.x[7].toNat + 1 = s.x[7].toNat ∧
      (t.mem.read t.x[7].toNat).toNat = s.pc.toNat + 2 ∧
      (∀ a : Nat, a ≠ t.x[7].toNat → t.mem.read a = s.mem.read a) ∧
      t.pc.toNat = t.x[op1.toNat].toNat ∧ t.halted = s.halted ∧ t.fault = s.fault ∧ t.out = s.out

/-- 44_call_return.md R101: RET sets `pc` to the byte at SP, whatever pushed it, and SP goes up by one; memory keeps the cell.
With SP at 255 it raises AddressFault(MEM, 256) (R98 b, decision D10, assumption log 16) and `pc` and SP are unchanged (decision
D6, log 4). -/
def Obligations.RetPopsThePc : Prop :=
  ∀ s : State, FetchInRange s →
    encode .ret = [0b00010001] ∧
    (s.x[7] ≠ 255 →
      ∃ t, exec .ret s = .next t ∧
        t.pc.toNat = (s.mem.read s.x[7].toNat).toNat ∧ t.x = s.x.set 7 t.x[7] ∧ t.x[7].toNat = s.x[7].toNat + 1 ∧
        t.mem = s.mem ∧ t.halted = s.halted ∧ t.fault = s.fault ∧ t.out = s.out) ∧
    (s.x[7] = 255 → exec .ret s = .next (afterAddressFault s .mem 256))

/-! ### Faults -/

/-- 10_state.md section 2 (R13, decisions D7 and D8): a register operand above 7 raises AddressFault(REG, byte), unmasked, in
every instruction that has one; the first operand is checked before the second, and before the stack. That nothing but the latch
and the record changes is decision D6 (assumption log 4). -/
def Obligations.RegisterIndexFaults : Prop :=
  ∀ (op1 op2 : Byte) (s : State),
    (7 < op1.toNat →
      ∀ i ∈ [Instr.ldi op1 op2, .prn op1, .mult op1 op2, .add op1 op2, .push op1, .pop op1, .call op1],
        exec i s = .next (afterAddressFault s .reg op1.toNat)) ∧
    (op1.toNat ≤ 7 → 7 < op2.toNat →
      ∀ i ∈ [Instr.mult op1 op2, .add op1 op2], exec i s = .next (afterAddressFault s .reg op2.toNat))

/-- 43_stack.md, section The stack convention (R98 a and b, decisions D9 and D10): a push with SP = 0 raises
AddressFault(MEM, -1), a pop that would take SP to 256 raises AddressFault(MEM, 256); the SP arithmetic these four do does not
wrap: SP moves down, or up, by exactly one or not at all (arithmetic on R7 as an operand, `ADD R7, Rn`, wraps by R92 and is not
meant here). That `POP R7` increments the popped byte, so that it is this byte whose 255 faults and not SP's, is the spec's
decision D13 (R97; assumption log 5); that a fault changes only the latch and the record is decision D6 (log 4). -/
def Obligations.StackBoundsFaults : Prop :=
  ∀ (op1 : Byte) (s : State), op1.toNat ≤ 7 →
    (s.x[7] = 0 → ∀ i ∈ [Instr.push op1, .call op1], exec i s = .next (afterAddressFault s .mem (-1))) ∧
    (op1 ≠ 7 → s.x[7] = 255 → exec (.pop op1) s = .next (afterAddressFault s .mem 256)) ∧
    (op1 = 7 → s.mem.read s.x[7].toNat = 255 → exec (.pop op1) s = .next (afterAddressFault s .mem 256)) ∧
    (s.x[7] = 255 → exec .ret s = .next (afterAddressFault s .mem 256)) ∧
    (∀ t : State, ∀ i ∈ [Instr.push op1, .call op1], exec i s = .next t →
      t.x[7] = s.x[7] ∨ t.x[7].toNat + 1 = s.x[7].toNat) ∧
    (∀ t : State, ∀ i ∈ [Instr.pop op1, .ret], i ≠ .pop 7 → exec i s = .next t →
      t.x[7] = s.x[7] ∨ t.x[7].toNat = s.x[7].toNat + 1) ∧
    (∀ t : State, exec (.pop 7) s = .next t →
      t.x[7] = s.x[7] ∨ t.x[7].toNat = (s.mem.read s.x[7].toNat).toNat + 1)

/-- 60_exceptions.md section 3 (R116, decision D7): a running step ends in exactly the fault that the priority list names, taken
from the state it began in (nothing but the latch and the record changed: decision D6, assumption log 4), and, where the list
names none, in no fault. -/
def Obligations.FaultsFollowThePriorityList : Prop :=
  ∀ s : State, s.halted = false →
    (∀ e, firstFault s = some e → step s = .next (takeFault s e)) ∧
    (firstFault s = none → ∃ t, step s = .next t ∧ t.fault = s.fault)

/-- 40_fetch_dispatch.md section 5 (R75), 60_exceptions.md R117: on a fault `halted` is set and the record written; nothing else is
saved or changed, and `pc` remains at the faulting instruction. That a fault inside an instruction discards the step's writes, so
that memory, registers, `pc` and output are as before the step, is the spec's decision D6 (assumption log 4). -/
def Obligations.FaultChangesOnlyLatchAndRecord : Prop :=
  ∀ s t : State, Inv s → step s = .next t → t.fault.cause ≠ .none →
    t.mem = s.mem ∧ t.x = s.x ∧ t.pc = s.pc ∧ t.out = s.out ∧ t.halted = true ∧ t.fault.pc = s.pc

/-- 40_fetch_dispatch.md section 6 (R78): a run ends in a clean halt, by an HLT and with `pc` at that HLT byte, or in a faulted
end, with `pc = fault.pc` the address at which the faulting step began (for an address fault inside an instruction this is R75's
no-advance, the spec's decision D6, assumption log 4). -/
def Obligations.RunEndsByHltOrFault : Prop :=
  ∀ s t : State, Inv s → step s = .next t → t.halted = true →
    (CleanHalt t ∧ fetchInstr s = .ok .hlt ∧ t.pc = s.pc ∧ t.mem.read t.pc.toNat = 0x01) ∨
    (FaultedEnd t ∧ t.pc = t.fault.pc ∧ t.fault.pc = s.pc)

/-! ### Frames: what an instruction leaves unchanged -/

/-- 10_state.md R12's table, 42_alu.md R90: LDI, MULT and ADD change no register but `op1`, no byte of memory and no output, and
the latch and the record only where an operand names no register. -/
def Obligations.FrameRegisterWriters : Prop :=
  ∀ (op1 op2 : Byte) (s t : State), ∀ i ∈ [Instr.ldi op1 op2, .mult op1 op2, .add op1 op2], exec i s = .next t →
    (∀ r : RegIndex, r.val ≠ op1.toNat → t.x[r] = s.x[r]) ∧
    (∀ a : Nat, t.mem.read a = s.mem.read a) ∧ t.out = s.out ∧
    (op1.toNat ≤ 7 → (op2.toNat ≤ 7 ∨ i = .ldi op1 op2) → t.halted = s.halted ∧ t.fault = s.fault)

/-- 10_state.md R12's table: HLT and PRN change no register and no byte of memory; HLT keeps the output and the record, PRN the
output's earlier values. -/
def Obligations.FrameHltAndPrn : Prop :=
  ∀ (op1 : Byte) (s t : State), ∀ i ∈ [Instr.hlt, .prn op1], exec i s = .next t →
    (∀ r : RegIndex, t.x[r] = s.x[r]) ∧ (∀ a : Nat, t.mem.read a = s.mem.read a) ∧ s.out <+: t.out ∧
    (i = .hlt → t.out = s.out ∧ t.fault = s.fault ∧ t.pc = s.pc) ∧
    (i = .prn op1 → op1.toNat ≤ 7 → t.halted = s.halted ∧ t.fault = s.fault)

/-- 10_state.md R12's table, 20_memory.md R34's: PUSH and CALL change no register but SP and no output, and no byte of memory but
the one at the address `spBelow` gives for the SP before; where `spBelow` gives none, no byte at all. -/
def Obligations.FrameStackWriters : Prop :=
  ∀ (op1 : Byte) (s t : State), ∀ i ∈ [Instr.push op1, .call op1], exec i s = .next t →
    (∀ r : RegIndex, r ≠ 7 → t.x[r] = s.x[r]) ∧
    (∀ a : Byte, spBelow s.sp = .ok a → ∀ c : Nat, c ≠ a.toNat → t.mem.read c = s.mem.read c) ∧
    (∀ e, spBelow s.sp = .error e → ∀ c : Nat, t.mem.read c = s.mem.read c) ∧ t.out = s.out ∧
    (op1.toNat ≤ 7 → s.x[7] ≠ 0 → t.halted = s.halted ∧ t.fault = s.fault)

/-- 10_state.md R12's table, 43_stack.md R95: POP changes no register but `op1` and SP, RET none but SP; neither changes a byte
of memory (the popped cell keeps its contents) or the output. -/
def Obligations.FrameStackReaders : Prop :=
  ∀ (op1 : Byte) (s t : State), ∀ i ∈ [Instr.pop op1, .ret], exec i s = .next t →
    (∀ r : RegIndex, r ≠ 7 → (i = .pop op1 → r.val ≠ op1.toNat) → t.x[r] = s.x[r]) ∧
    (∀ a : Nat, t.mem.read a = s.mem.read a) ∧ t.out = s.out ∧
    (i = .ret → s.x[7] ≠ 255 → t.halted = s.halted ∧ t.fault = s.fault) ∧
    (i = .pop op1 → op1.toNat ≤ 7 → (op1 ≠ 7 → s.x[7] ≠ 255) → (op1 = 7 → s.mem.read s.x[7].toNat ≠ 255) →
      t.halted = s.halted ∧ t.fault = s.fault)

/-! ### Rules about the whole machine -/

/-- 10_state.md section 8 (R23), with memory in canonical form and the record as the rules write it: every step keeps it. -/
def Obligations.StepKeepsInvariant : Prop :=
  ∀ s t : State, Inv s → step s = .next t → Inv t

/-- The invariant holds after reset. -/
def Obligations.InvariantAfterReset : Prop := Inv State.reset

/-- 10_state.md section 8 (R23): the invariant holds in every state a run reaches from any load. -/
def Obligations.ReachableStatesMeetInvariant : Prop := ∀ s : State, Reachable s → Inv s

/-- 10_state.md section 5 (R19, decision D15; R23): the output only grows, by at most one value a step, and only by a PRN's
register. -/
def Obligations.OutputGrowsByPrnAlone : Prop :=
  ∀ s t : State, step s = .next t →
    t.out = s.out ∨
    ∃ (op1 : Byte) (h : op1.toNat < 8), fetchInstr s = .ok (.prn op1) ∧ t.out = s.out ++ [s.x[op1.toNat]]

/-- 20_memory.md section 3 (R34): a step changes memory only if it runs PUSH or CALL, and then only the cell below SP. -/
def Obligations.OnlyPushAndCallStore : Prop :=
  ∀ (s t : State) (a : Nat), step s = .next t → t.mem.read a ≠ s.mem.read a →
    (s.mem.read s.pc.toNat = 0x45 ∨ s.mem.read s.pc.toNat = 0x50) ∧ a + 1 = s.x[7].toNat

/-- 10_state.md section 2 (R12, decision D12): which register a step can change, by the opcode it runs. -/
def Obligations.RegistersChangedByOpcode : Prop :=
  ∀ (s t : State) (r : RegIndex), step s = .next t → t.x[r] ≠ s.x[r] →
    (s.mem.read s.pc.toNat ∈ ([0x82, 0xA2, 0xA0, 0x46] : List Byte) ∧ (s.mem.read (s.pc.toNat + 1)).toNat = r.val) ∨
    (s.mem.read s.pc.toNat ∈ ([0x45, 0x46, 0x50, 0x11] : List Byte) ∧ r = 7)

/-- 20_memory.md section 10 (R43): the byte a PUSH or a CALL stores is what every later fetch reads there, as the opcode or as
either operand byte, for as long as the cell keeps it; `u := t` is the fetch of the very next step. That `PUSH R7` stores the SP
after the decrement is the spec's decision D13 (assumption log 5). -/
def Obligations.StoreIsSeenByTheNextFetch : Prop :=
  ∀ (op1 : Byte) (s : State) (h : op1.toNat < 8), FetchInRange s → s.mem.wf = true → s.x[7] ≠ 0 →
    ∀ i ∈ [Instr.push op1, .call op1], ∃ (t : State) (v : Byte), exec i s = .next t ∧
      (i = .push op1 → v = t.x[op1.toNat]) ∧ (i = .call op1 → v.toNat = s.pc.toNat + 2) ∧
      ∀ u : State, FetchInRange u → u.mem.read t.x[7].toNat = t.mem.read t.x[7].toNat →
        ∃ w, fetchWindow u = .ok w ∧
          (u.pc.toNat = t.x[7].toNat → w.opc = v) ∧
          (u.pc.toNat + 1 = t.x[7].toNat → w.op1 = v) ∧
          (u.pc.toNat + 2 = t.x[7].toNat → w.op2 = v)

/-- 43_stack.md section POP, its derived property: for registers other than R7 and an SP of at least 1, PUSH then POP copies the
register and restores SP. -/
def Obligations.PushThenPopRoundTrips : Prop :=
  ∀ (r1 r2 : Byte) (s : State) (h1 : r1.toNat < 7) (h2 : r2.toNat < 7), s.mem.wf = true → 1 ≤ s.x[7].toNat →
    ∃ t u, exec (.push r1) s = .next t ∧ exec (.pop r2) t = .next u ∧
      u.x[r2.toNat] = s.x[r1.toNat] ∧ u.x[7] = s.x[7]

/-- 44_call_return.md section RET, its property: CALL then RET leaves SP as it was and `pc` just after the CALL; here for every
register, R7 too, and an SP of at least 1. -/
def Obligations.CallThenRetIsStackNeutral : Prop :=
  ∀ (r : Byte) (s : State), r.toNat < 8 → FetchInRange s → s.mem.wf = true → 1 ≤ s.x[7].toNat →
    ∃ t u, exec (.call r) s = .next t ∧ exec .ret t = .next u ∧
      u.x = s.x ∧ u.pc.toNat = s.pc.toNat + 2
end

