-- ==== Sys2Proof/Laws/Decode.lean ====
section
/-! SUPPORT. What the decoder can answer on a window (30_encoding.md R55, R57). -/

namespace Sys2Proof

/-- The nine answers of the decoder, each with its opcode. -/
theorem decodeWindow_cases {opc op1 op2 : Byte} {i : Instr} (h : decodeWindow opc op1 op2 = .ok i) :
    (opc = 0x01 ∧ i = .hlt) ∨ (opc = 0x82 ∧ i = .ldi op1 op2) ∨ (opc = 0x47 ∧ i = .prn op1) ∨
    (opc = 0xA2 ∧ i = .mult op1 op2) ∨ (opc = 0xA0 ∧ i = .add op1 op2) ∨ (opc = 0x45 ∧ i = .push op1) ∨
    (opc = 0x46 ∧ i = .pop op1) ∨ (opc = 0x50 ∧ i = .call op1) ∨ (opc = 0x11 ∧ i = .ret) := by
  unfold decodeWindow at h
  repeat' split at h
  all_goals first
    | (cases h; done)
    | (cases h; simp_all)

/-- The decoder rejects exactly the bytes that are no opcode, by name. -/
theorem decodeWindow_unknown {opc : Byte} (op1 op2 : Byte) (h : opc ∉ definedOpcodes) :
    decodeWindow opc op1 op2 = .error (.unknownOpcode opc) := by
  simp only [definedOpcodes, opcodeTable, List.map_cons, List.map_nil, List.mem_cons, List.not_mem_nil, or_false,
    not_or] at h
  obtain ⟨h1, h2, h3, h4, h5, h6, h7, h8, h9⟩ := h
  rw [decodeWindow, if_neg h1, if_neg h2, if_neg h3, if_neg h4, if_neg h5, if_neg h6, if_neg h7, if_neg h8, if_neg h9]

/-- The decoder answers on every opcode of the table. -/
theorem decodeWindow_defined {opc : Byte} (op1 op2 : Byte) (h : opc ∈ definedOpcodes) :
    ∃ i, decodeWindow opc op1 op2 = .ok i := by
  simp only [definedOpcodes, opcodeTable, List.map_cons, List.map_nil, List.mem_cons, List.not_mem_nil, or_false] at h
  rcases h with rfl | rfl | rfl | rfl | rfl | rfl | rfl | rfl | rfl <;> exact ⟨_, rfl⟩

end Sys2Proof
end

