-- ==== Sys2Proof/Laws/Memory.lean ====
section
/-! SUPPORT. The laws of memory: a read after a write, and that a write keeps the canonical form. -/

namespace Sys2Proof.Machine

theorem Memory.wfFrom_mono {lo lo' : Nat} (h : lo' ≤ lo) : ∀ {m : Memory}, m.wfFrom lo = true → m.wfFrom lo' = true
  | [], _ => rfl
  | (a, v) :: rest, hm => by
    simp only [Memory.wfFrom, Bool.and_eq_true, decide_eq_true_eq] at hm ⊢
    exact ⟨⟨⟨by omega, hm.1.1.2⟩, hm.1.2⟩, hm.2⟩

/-- The canonical form starts at its first entry. -/
theorem Memory.wfFrom_mono_head {lo b : Nat} {w : Byte} {rest : Memory} (h : Memory.wfFrom lo ((b, w) :: rest) = true) :
    Memory.wfFrom b ((b, w) :: rest) = true := by
  simp only [Memory.wfFrom, Bool.and_eq_true, decide_eq_true_eq] at h ⊢
  exact ⟨⟨⟨Nat.le_refl b, h.1.1.2⟩, h.1.2⟩, h.2⟩

/-- Nothing is listed below the bound of the canonical form. -/
theorem Memory.read_below {a : Nat} : ∀ {lo : Nat} {m : Memory}, m.wfFrom lo = true → a < lo → m.read a = Config.memReset
  | _, [], _, _ => rfl
  | lo, (b, w) :: rest, hm, ha => by
    simp only [Memory.wfFrom, Bool.and_eq_true, decide_eq_true_eq] at hm
    have hab : a ≠ b := by omega
    simp only [Memory.read, if_neg hab]
    exact Memory.read_below hm.2 (by omega)

/-- A write leaves every other cell alone (20_memory.md R31), whatever the memory. -/
theorem Memory.read_write_other {a c : Nat} (v : Byte) (h : c ≠ a) : ∀ m : Memory, (m.write a v).read c = m.read c
  | [] => by
    unfold Memory.write
    split <;> simp [Memory.read, h]
  | (b, w) :: rest => by
    have ih := Memory.read_write_other v h rest
    unfold Memory.write
    split
    · split <;> simp [Memory.read, h]
    · split
      · rename_i he
        subst he
        split <;> simp [Memory.read, h]
      · simp [Memory.read, ih]

theorem Memory.read_write_same_from {a : Nat} (v : Byte) :
    ∀ {lo : Nat} {m : Memory}, m.wfFrom lo = true → (m.write a v).read a = v
  | _, [], _ => by
    unfold Memory.write
    split
    · rename_i hv
      exact hv.symm
    · simp [Memory.read]
  | lo, (b, w) :: rest, hm => by
    have hm' := hm
    simp only [Memory.wfFrom, Bool.and_eq_true, decide_eq_true_eq] at hm'
    unfold Memory.write
    split
    · rename_i hab
      split
      · rename_i hv
        rw [hv]
        exact Memory.read_below (lo := b) (Memory.wfFrom_mono_head hm) hab
      · simp [Memory.read]
    · split
      · rename_i he
        split
        · rename_i hv
          rw [hv]
          exact Memory.read_below hm'.2 (by omega)
        · simp [Memory.read]
      · rename_i he
        simpa [Memory.read, he] using Memory.read_write_same_from v hm'.2

/-- A cell holds the byte last written to it (20_memory.md R31). -/
theorem Memory.read_write_same {m : Memory} (h : m.wf = true) (a : Nat) (v : Byte) : (m.write a v).read a = v :=
  Memory.read_write_same_from v h

theorem Memory.wfFrom_write {a : Nat} (v : Byte) (ha : a < Config.memSize) :
    ∀ {lo : Nat} {m : Memory}, m.wfFrom lo = true → lo ≤ a → (m.write a v).wfFrom lo = true
  | lo, [], _, hlo => by
    by_cases hv : v = Config.memReset
    · simp [Memory.write, Memory.wfFrom, hv]
    · simp only [Memory.write, if_neg hv, Memory.wfFrom, Bool.and_eq_true, decide_eq_true_eq]
      exact ⟨⟨⟨hlo, ha⟩, hv⟩, trivial⟩
  | lo, (b, w) :: rest, hm, hlo => by
    have hm' := hm
    simp only [Memory.wfFrom, Bool.and_eq_true, decide_eq_true_eq] at hm
    obtain ⟨⟨⟨hb, hbs⟩, hw⟩, hrest⟩ := hm
    simp only [Memory.write]
    by_cases hab : a < b
    · by_cases hv : v = Config.memReset
      · simp only [if_pos hab, if_pos hv]; exact hm'
      · simp only [if_pos hab, if_neg hv, Memory.wfFrom, Bool.and_eq_true, decide_eq_true_eq]
        exact ⟨⟨⟨hlo, ha⟩, hv⟩, ⟨⟨hab, hbs⟩, hw⟩, hrest⟩
    · by_cases he : a = b
      · subst he
        by_cases hv : v = Config.memReset
        · simp only [if_neg hab, if_true, if_pos hv]
          exact Memory.wfFrom_mono (by omega) hrest
        · simp only [if_neg hab, if_true, if_neg hv, Memory.wfFrom, Bool.and_eq_true, decide_eq_true_eq]
          exact ⟨⟨⟨hlo, ha⟩, hv⟩, hrest⟩
      · simp only [if_neg hab, if_neg he, Memory.wfFrom, Bool.and_eq_true, decide_eq_true_eq]
        exact ⟨⟨⟨hb, hbs⟩, hw⟩, Memory.wfFrom_write v ha hrest (by omega)⟩

/-- A write inside the address space keeps the canonical form. -/
theorem Memory.wf_write {m : Memory} (h : m.wf = true) {a : Nat} (ha : a < Config.memSize) (v : Byte) :
    (m.write a v).wf = true :=
  Memory.wfFrom_write v ha h (Nat.zero_le a)

/-- Memory after reset is in canonical form. -/
theorem reset_mem_wf : State.reset.mem.wf = true := rfl

/-- A checked write that succeeds keeps the canonical form. -/
theorem memWrite_wf {m m' : Memory} {a : Int} {v : Byte} (h : m.wf = true) (hw : memWrite m a v = .ok m') :
    m'.wf = true := by
  cases a with
  | ofNat n =>
    simp only [memWrite] at hw
    split at hw
    · rename_i hn
      cases hw
      exact Memory.wf_write h hn v
    · cases hw
  | negSucc n => cases hw

end Sys2Proof.Machine
end

