-- ==== Sys2Proof/Laws/State.lean ====
section
/-! SUPPORT. What each update of State leaves and changes, field by field, so that no proof unfolds a record update. -/

namespace Sys2Proof.Machine

section Fields
variable (s : State) (i j : RegIndex) (v : Byte) (t : PcWord) (n : Nat) (e : Raise)

@[simp] theorem setReg_mem : (s.setReg i v).mem = s.mem := rfl
@[simp] theorem setReg_x : (s.setReg i v).x = s.x.set i v := rfl
@[simp] theorem setReg_pc : (s.setReg i v).pc = s.pc := rfl
@[simp] theorem setReg_halted : (s.setReg i v).halted = s.halted := rfl
@[simp] theorem setReg_fault : (s.setReg i v).fault = s.fault := rfl
@[simp] theorem setReg_out : (s.setReg i v).out = s.out := rfl

@[simp] theorem setSp_mem : (s.setSp v).mem = s.mem := rfl
@[simp] theorem setSp_x : (s.setSp v).x = s.x.set 7 v := rfl
@[simp] theorem setSp_pc : (s.setSp v).pc = s.pc := rfl
@[simp] theorem setSp_halted : (s.setSp v).halted = s.halted := rfl
@[simp] theorem setSp_fault : (s.setSp v).fault = s.fault := rfl
@[simp] theorem setSp_out : (s.setSp v).out = s.out := rfl

@[simp] theorem setPc_mem : (s.setPc t).mem = s.mem := rfl
@[simp] theorem setPc_x : (s.setPc t).x = s.x := rfl
@[simp] theorem setPc_pc : (s.setPc t).pc = t := rfl
@[simp] theorem setPc_halted : (s.setPc t).halted = s.halted := rfl
@[simp] theorem setPc_fault : (s.setPc t).fault = s.fault := rfl
@[simp] theorem setPc_out : (s.setPc t).out = s.out := rfl

@[simp] theorem advance_mem : (s.advance n).mem = s.mem := rfl
@[simp] theorem advance_x : (s.advance n).x = s.x := rfl
@[simp] theorem advance_halted : (s.advance n).halted = s.halted := rfl
@[simp] theorem advance_fault : (s.advance n).fault = s.fault := rfl
@[simp] theorem advance_out : (s.advance n).out = s.out := rfl
theorem advance_pc : (s.advance n).pc = BitVec.ofNat 9 (s.pc.toNat + n) := rfl

@[simp] theorem emit_mem : (s.emit v).mem = s.mem := rfl
@[simp] theorem emit_x : (s.emit v).x = s.x := rfl
@[simp] theorem emit_pc : (s.emit v).pc = s.pc := rfl
@[simp] theorem emit_halted : (s.emit v).halted = s.halted := rfl
@[simp] theorem emit_fault : (s.emit v).fault = s.fault := rfl
@[simp] theorem emit_out : (s.emit v).out = s.out ++ [v] := rfl

@[simp] theorem halt_mem : s.halt.mem = s.mem := rfl
@[simp] theorem halt_x : s.halt.x = s.x := rfl
@[simp] theorem halt_pc : s.halt.pc = s.pc := rfl
@[simp] theorem halt_halted : s.halt.halted = true := rfl
@[simp] theorem halt_fault : s.halt.fault = s.fault := rfl
@[simp] theorem halt_out : s.halt.out = s.out := rfl

@[simp] theorem takeFault_mem : (takeFault s e).mem = s.mem := rfl
@[simp] theorem takeFault_x : (takeFault s e).x = s.x := rfl
@[simp] theorem takeFault_pc : (takeFault s e).pc = s.pc := rfl
@[simp] theorem takeFault_halted : (takeFault s e).halted = true := rfl
@[simp] theorem takeFault_fault : (takeFault s e).fault = faultRecord s.pc e := rfl
@[simp] theorem takeFault_out : (takeFault s e).out = s.out := rfl

@[simp] theorem faultRecord_pc : (faultRecord t e).pc = t := by cases e <;> rfl
@[simp] theorem faultRecord_cause_ne_none : (faultRecord t e).cause ≠ .none := by cases e <;> simp [faultRecord]

@[simp] theorem zext9_toNat : (zext9 v).toNat = v.toNat := by
  have := v.isLt
  simp [zext9]; omega

/-- Below 509 an advance is the integer sum (10_state.md R16). -/
theorem advance_pc_toNat (h : s.pc.toNat + n < 512) : (s.advance n).pc.toNat = s.pc.toNat + n := by
  rw [advance_pc, BitVec.toNat_ofNat]; omega

/-- With the window in memory the return address is `pc + 2` exactly (44_call_return.md R102). -/
theorem returnAddr_toNat (h : s.pc.toNat ≤ 253) : s.returnAddr.toNat = s.pc.toNat + 2 := by
  rw [State.returnAddr, BitVec.toNat_ofNat]; omega

theorem reg_eq : s.reg i = s.x[i] := rfl
theorem sp_eq : s.sp = s.x[7] := rfl

@[simp] theorem reg_setReg_self : (s.setReg i v).reg i = v := by simp [State.reg, State.setReg]

@[simp] theorem reg_setReg_ne (h : i ≠ j) : (s.setReg i v).reg j = s.reg j := by
  simp [State.reg, State.setReg, Fin.val_inj, h]

@[simp] theorem sp_setSp : (s.setSp v).sp = v := by simp [State.sp, State.setSp]

end Fields

end Sys2Proof.Machine
end

