-- ==== Sys2Proof/Laws/Ops.lean ====
section
/-! SUPPORT. One lemma per shared operation that says all it can do; provers cite these and do not unfold the operation. -/

namespace Sys2Proof.Machine

/-- A checked read inside the address space (20_memory.md R32). -/
theorem memRead_inside (m : Memory) {a : Int} (h0 : 0 ≤ a) (h1 : a ≤ 255) : memRead m a = .ok (m.read a.toNat) := by
  obtain ⟨n, rfl⟩ := Int.eq_ofNat_of_zero_le h0
  exact if_pos (show n < 256 by omega)

/-- A checked read outside the address space (20_memory.md R32). -/
theorem memRead_outside (m : Memory) {a : Int} (h : a < 0 ∨ 255 < a) : memRead m a = .error (.addressFault .mem a) := by
  cases a with
  | ofNat n => rw [Int.ofNat_eq_natCast] at h ⊢; exact if_neg (show ¬ n < 256 by omega)
  | negSucc n => rfl

/-- A checked write inside the address space (20_memory.md R33). -/
theorem memWrite_inside (m : Memory) (v : Byte) {a : Int} (h0 : 0 ≤ a) (h1 : a ≤ 255) :
    memWrite m a v = .ok (m.write a.toNat v) := by
  obtain ⟨n, rfl⟩ := Int.eq_ofNat_of_zero_le h0
  exact if_pos (show n < 256 by omega)

/-- A checked write outside the address space (20_memory.md R33). -/
theorem memWrite_outside (m : Memory) (v : Byte) {a : Int} (h : a < 0 ∨ 255 < a) :
    memWrite m a v = .error (.addressFault .mem a) := by
  cases a with
  | ofNat n => rw [Int.ofNat_eq_natCast] at h ⊢; exact if_neg (show ¬ n < 256 by omega)
  | negSucc n => rfl

/-- `RegIdx` on a byte that names a register (10_state.md R13). -/
theorem regIdx_ok {b : Byte} (h : b.toNat < 8) : regIdx b = .ok ⟨b.toNat, h⟩ := by simp [regIdx, h]

/-- `RegIdx` on any other byte (10_state.md R13). -/
theorem regIdx_error {b : Byte} (h : ¬ b.toNat < 8) : regIdx b = .error (.addressFault .reg b.toNat) := by
  simp [regIdx, h]

/-- The address below SP, or the overflow fault (43_stack.md R98 a). -/
theorem spBelow_eq (sp : Byte) :
    spBelow sp = if sp = 0 then .error (.addressFault .mem (-1)) else .ok (sp - 1) := by
  revert sp; decide

/-- The pointer above, or the underflow fault (43_stack.md R98 b). -/
theorem spAbove_eq (v : Byte) :
    spAbove v = if v = 255 then .error (.addressFault .mem 256) else .ok (v + 1) := by
  revert v; decide

/-- The first half of a push. -/
theorem openSlot_eq (s : State) :
    openSlot s = if s.sp = 0 then .error (.addressFault .mem (-1)) else .ok (s.setSp (s.sp - 1)) := by
  unfold openSlot
  rw [spBelow_eq]
  split <;> rfl

/-- The second half of a push always succeeds: SP is a byte. -/
theorem storeTop_eq (s : State) (v : Byte) : storeTop s v = .ok { s with mem := s.mem.write s.sp.toNat v } := by
  have := s.sp.isLt
  unfold storeTop
  rw [memWrite_inside s.mem v (by omega) (by omega)]
  rfl

/-- The read of a pop always succeeds: SP is a byte. -/
theorem loadTop_eq (s : State) : loadTop s = .ok (s.mem.read s.sp.toNat) := by
  have := s.sp.isLt
  unfold loadTop
  rw [memRead_inside s.mem (by omega) (by omega)]
  rfl

@[simp] theorem settle_ok (s t : State) : settle s (.ok t) = .next t := rfl
@[simp] theorem settle_error (s : State) (e : Raise) : settle s (.error e) = .next (takeFault s e) := rfl

/-- What a settled step can be: what it did, or the fault taken from its start (40_fetch_dispatch.md R75). -/
theorem settle_cases {s t : State} {r : Except Raise State} (h : settle s r = .next t) :
    r = .ok t ∨ ∃ e, r = .error e ∧ t = takeFault s e := by
  cases r with
  | ok u => exact .inl (by cases h; rfl)
  | error e => exact .inr ⟨e, rfl, by cases h; rfl⟩

/-- A settled step never stops the machine. -/
theorem settle_next (s : State) (r : Except Raise State) : ∃ t, settle s r = .next t := by
  cases r with
  | ok t => exact ⟨t, rfl⟩
  | error e => exact ⟨takeFault s e, rfl⟩

/-- The ALU's result is the exact value modulo 256 (42_alu.md R93). -/
theorem aluResult_toNat (op : AluOp) (a b : Byte) : (aluResult op a b).toNat = aluExact op a b % 256 := by
  simp [aluResult]

/-- The window read where it is in memory. -/
theorem fetchWindow_inside (s : State) (h : s.pc.toNat ≤ 253) :
    fetchWindow s = .ok { opc := s.mem.read s.pc.toNat
                          op1 := s.mem.read (s.pc.toNat + 1)
                          op2 := s.mem.read (s.pc.toNat + 2) } := by
  unfold fetchWindow
  rw [memRead_inside s.mem (by omega) (by omega), memRead_inside s.mem (by omega) (by omega),
    memRead_inside s.mem (by omega) (by omega)]
  rfl

/-- The window read at 254: `pc + 2` is the first address outside (40_fetch_dispatch.md R71). -/
theorem fetchWindow_254 (s : State) (h : s.pc.toNat = 254) : fetchWindow s = .error (.addressFault .mem 256) := by
  unfold fetchWindow
  rw [h, memRead_inside s.mem (by omega) (by omega), memRead_outside s.mem (by omega)]
  rfl

/-- The window read from 255 up: `pc + 1` is the first address outside (40_fetch_dispatch.md R71). -/
theorem fetchWindow_outside (s : State) (h : 255 ≤ s.pc.toNat) :
    fetchWindow s = .error (.addressFault .mem (s.pc.toNat + 1)) := by
  unfold fetchWindow
  rw [memRead_outside s.mem (by omega)]
  rfl

end Sys2Proof.Machine
end

