-- ==== Sys2Proof/Laws/Exec.lean ====
section
/-! SUPPORT. Each meaning as its cases, the raise conditions first: the one place where a meaning is unfolded. -/

namespace Sys2Proof.Machine

/-- A checked register operand: what follows with the index, or the fault (10_state.md R13). -/
theorem settle_regIdx (s : State) (b : Byte) (k : RegIndex → Except Raise State) :
    settle s (regIdx b >>= k) =
      if h : b.toNat < 8 then settle s (k ⟨b.toNat, h⟩)
      else .next (takeFault s (.addressFault .reg b.toNat)) := by
  by_cases h : b.toNat < 8
  · rw [regIdx_ok h, dif_pos h]; rfl
  · rw [regIdx_error h, dif_neg h]; rfl

/-- A push: what follows with the state after it, or the overflow fault (43_stack.md R95, R98). -/
theorem settle_push (s : State) (v : State → Byte) (k : State → State) :
    settle s (openSlot s >>= fun s1 => storeTop s1 (v s1) >>= fun s2 => pure (k s2)) =
      if s.sp = 0 then .next (takeFault s (.addressFault .mem (-1)))
      else .next (k { s.setSp (s.sp - 1) with mem := s.mem.write (s.sp - 1).toNat (v (s.setSp (s.sp - 1))) }) := by
  rw [openSlot_eq]
  split
  · rfl
  · rw [show ∀ f : State → Except Raise State, ((Except.ok (s.setSp (s.sp - 1)) : Except Raise State) >>= f) =
      f (s.setSp (s.sp - 1)) from fun _ => rfl, storeTop_eq, sp_setSp]
    rfl

/-- The end of a pop: what follows with the raised pointer, or the underflow fault (43_stack.md R98). -/
theorem settle_spAbove (s : State) (v : Byte) (k : Byte → State) :
    settle s (spAbove v >>= fun n => pure (k n)) =
      if v = 255 then .next (takeFault s (.addressFault .mem 256)) else .next (k (v + 1)) := by
  rw [spAbove_eq]
  split <;> rfl

/-- Every meaning is settled from the state it begins in. -/
theorem exec_settles (i : Instr) (s : State) : ∃ r, exec i s = settle s r := by
  cases i
  case hlt => unfold exec execHlt; exact ⟨_, rfl⟩
  case ldi => unfold exec execLdi; exact ⟨_, rfl⟩
  case prn => unfold exec execPrn; exact ⟨_, rfl⟩
  case mult => unfold exec execMult aluInstr; exact ⟨_, rfl⟩
  case add => unfold exec execAdd aluInstr; exact ⟨_, rfl⟩
  case push => unfold exec execPush; exact ⟨_, rfl⟩
  case pop => unfold exec execPop; exact ⟨_, rfl⟩
  case call => unfold exec execCall; exact ⟨_, rfl⟩
  case ret => unfold exec execRet; exact ⟨_, rfl⟩

theorem execHlt_eq (s : State) : execHlt s = .next s.halt := rfl

theorem execLdi_eq (op1 op2 : Byte) (s : State) :
    execLdi op1 op2 s =
      if h : op1.toNat < 8 then .next ((s.setReg ⟨op1.toNat, h⟩ op2).advance 3)
      else .next (takeFault s (.addressFault .reg op1.toNat)) :=
  settle_regIdx s op1 _

theorem execPrn_eq (op1 : Byte) (s : State) :
    execPrn op1 s =
      if h : op1.toNat < 8 then .next ((s.emit (s.reg ⟨op1.toNat, h⟩)).advance 2)
      else .next (takeFault s (.addressFault .reg op1.toNat)) :=
  settle_regIdx s op1 _

theorem aluInstr_eq (op : AluOp) (op1 op2 : Byte) (s : State) :
    aluInstr op op1 op2 s =
      if h1 : op1.toNat < 8 then
        if h2 : op2.toNat < 8 then .next ((aluApply op ⟨op1.toNat, h1⟩ ⟨op2.toNat, h2⟩ s).advance 3)
        else .next (takeFault s (.addressFault .reg op2.toNat))
      else .next (takeFault s (.addressFault .reg op1.toNat)) := by
  refine (settle_regIdx s op1 _).trans ?_
  split
  · exact settle_regIdx s op2 _
  · rfl

theorem execPush_eq (op1 : Byte) (s : State) :
    execPush op1 s =
      if h : op1.toNat < 8 then
        if s.sp = 0 then .next (takeFault s (.addressFault .mem (-1)))
        else .next (State.advance { s.setSp (s.sp - 1) with
          mem := s.mem.write (s.sp - 1).toNat ((s.setSp (s.sp - 1)).reg ⟨op1.toNat, h⟩) } 2)
      else .next (takeFault s (.addressFault .reg op1.toNat)) := by
  refine (settle_regIdx s op1 _).trans ?_
  split
  · exact settle_push s _ _
  · rfl

theorem execPop_eq (op1 : Byte) (s : State) :
    execPop op1 s =
      if h : op1.toNat < 8 then
        let s1 := s.setReg ⟨op1.toNat, h⟩ (s.mem.read s.sp.toNat)
        if s1.sp = 255 then .next (takeFault s (.addressFault .mem 256))
        else .next ((s1.setSp (s1.sp + 1)).advance 2)
      else .next (takeFault s (.addressFault .reg op1.toNat)) := by
  refine (settle_regIdx s op1 _).trans ?_
  split
  · rw [loadTop_eq]; exact settle_spAbove s _ _
  · rfl

theorem execCall_eq (op1 : Byte) (s : State) :
    execCall op1 s =
      if h : op1.toNat < 8 then
        if s.sp = 0 then .next (takeFault s (.addressFault .mem (-1)))
        else .next (State.setPc { s.setSp (s.sp - 1) with mem := s.mem.write (s.sp - 1).toNat s.returnAddr }
          (zext9 ((s.setSp (s.sp - 1)).reg ⟨op1.toNat, h⟩)))
      else .next (takeFault s (.addressFault .reg op1.toNat)) := by
  refine (settle_regIdx s op1 _).trans ?_
  split
  · exact settle_push s _ _
  · rfl

theorem execRet_eq (s : State) :
    execRet s =
      if s.sp = 255 then .next (takeFault s (.addressFault .mem 256))
      else .next ((s.setPc (zext9 (s.mem.read s.sp.toNat))).setSp (s.sp + 1)) := by
  unfold execRet
  rw [loadTop_eq]
  exact settle_spAbove s _ _

/-- The raises of the handlers (60_exceptions.md R111): a register index outside 0..7, the push below 0, the pop above 255. -/
inductive HandlerRaise : Raise → Prop where
  | index (b : Byte) (h : 8 ≤ b.toNat) : HandlerRaise (.addressFault .reg b.toNat)
  | overflow : HandlerRaise (.addressFault .mem (-1))
  | underflow : HandlerRaise (.addressFault .mem 256)

/-- What running an instruction in `s` can lead to: its effect, or a fault taken from `s`. -/
inductive Effect (s : State) : Instr → State → Prop where
  | hlt : Effect s .hlt s.halt
  | ldi (op1 op2 : Byte) (h : op1.toNat < 8) : Effect s (.ldi op1 op2) ((s.setReg ⟨op1.toNat, h⟩ op2).advance 3)
  | prn (op1 : Byte) (h : op1.toNat < 8) : Effect s (.prn op1) ((s.emit (s.reg ⟨op1.toNat, h⟩)).advance 2)
  | mult (op1 op2 : Byte) (h1 : op1.toNat < 8) (h2 : op2.toNat < 8) :
      Effect s (.mult op1 op2) ((aluApply .mult ⟨op1.toNat, h1⟩ ⟨op2.toNat, h2⟩ s).advance 3)
  | add (op1 op2 : Byte) (h1 : op1.toNat < 8) (h2 : op2.toNat < 8) :
      Effect s (.add op1 op2) ((aluApply .add ⟨op1.toNat, h1⟩ ⟨op2.toNat, h2⟩ s).advance 3)
  | push (op1 : Byte) (h : op1.toNat < 8) (hs : s.sp ≠ 0) :
      Effect s (.push op1) (State.advance { s.setSp (s.sp - 1) with
        mem := s.mem.write (s.sp - 1).toNat ((s.setSp (s.sp - 1)).reg ⟨op1.toNat, h⟩) } 2)
  | pop (op1 : Byte) (h : op1.toNat < 8) (hs : (s.setReg ⟨op1.toNat, h⟩ (s.mem.read s.sp.toNat)).sp ≠ 255) :
      Effect s (.pop op1) (((s.setReg ⟨op1.toNat, h⟩ (s.mem.read s.sp.toNat)).setSp
        ((s.setReg ⟨op1.toNat, h⟩ (s.mem.read s.sp.toNat)).sp + 1)).advance 2)
  | call (op1 : Byte) (h : op1.toNat < 8) (hs : s.sp ≠ 0) :
      Effect s (.call op1) (State.setPc { s.setSp (s.sp - 1) with mem := s.mem.write (s.sp - 1).toNat s.returnAddr }
        (zext9 ((s.setSp (s.sp - 1)).reg ⟨op1.toNat, h⟩)))
  | ret (hs : s.sp ≠ 255) : Effect s .ret ((s.setPc (zext9 (s.mem.read s.sp.toNat))).setSp (s.sp + 1))
  | fault (i : Instr) (e : Raise) (he : HandlerRaise e) : Effect s i (takeFault s e)

/-- The inversion of `exec`: no other next state is possible. -/
theorem exec_effect {i : Instr} {s t : State} (h : exec i s = .next t) : Effect s i t := by
  cases i with
  | hlt => cases h; exact .hlt
  | ldi op1 op2 =>
    simp only [exec, execLdi_eq] at h
    split at h
    · rename_i h1; cases h; exact .ldi op1 op2 h1
    · cases h; exact .fault _ _ (.index op1 (by omega))
  | prn op1 =>
    simp only [exec, execPrn_eq] at h
    split at h
    · rename_i h1; cases h; exact .prn op1 h1
    · cases h; exact .fault _ _ (.index op1 (by omega))
  | mult op1 op2 =>
    simp only [exec, execMult, aluInstr_eq] at h
    split at h
    · rename_i h1
      split at h
      · rename_i h2; cases h; exact .mult op1 op2 h1 h2
      · cases h; exact .fault _ _ (.index op2 (by omega))
    · cases h; exact .fault _ _ (.index op1 (by omega))
  | add op1 op2 =>
    simp only [exec, execAdd, aluInstr_eq] at h
    split at h
    · rename_i h1
      split at h
      · rename_i h2; cases h; exact .add op1 op2 h1 h2
      · cases h; exact .fault _ _ (.index op2 (by omega))
    · cases h; exact .fault _ _ (.index op1 (by omega))
  | push op1 =>
    simp only [exec, execPush_eq] at h
    split at h
    · rename_i h1
      split at h
      · cases h; exact .fault _ _ .overflow
      · rename_i h2; cases h; exact .push op1 h1 h2
    · cases h; exact .fault _ _ (.index op1 (by omega))
  | pop op1 =>
    simp only [exec, execPop_eq] at h
    split at h
    · rename_i h1
      split at h
      · cases h; exact .fault _ _ .underflow
      · rename_i h2; cases h; exact .pop op1 h1 h2
    · cases h; exact .fault _ _ (.index op1 (by omega))
  | call op1 =>
    simp only [exec, execCall_eq] at h
    split at h
    · rename_i h1
      split at h
      · cases h; exact .fault _ _ .overflow
      · rename_i h2; cases h; exact .call op1 h1 h2
    · cases h; exact .fault _ _ (.index op1 (by omega))
  | ret =>
    simp only [exec, execRet_eq] at h
    split at h
    · cases h; exact .fault _ _ .underflow
    · rename_i h2; cases h; exact .ret h2

end Sys2Proof.Machine
end

