-- ==== Sys2Proof/Laws/PerInstr.lean ====
section
/-! SUPPORT. Facts about every instruction as syntax, one lemma per constructor. -/

namespace Sys2Proof.Laws

/-! ### The encoding has the instruction's length, one to three bytes (30_encoding.md R50, R54) -/

namespace EncodeLength

def Statement (i : Instr) : Prop := (encode i).length = i.length ∧ 1 ≤ i.length ∧ i.length ≤ Config.maxIlen

theorem hlt : Statement .hlt := ⟨rfl, Nat.le_of_ble_eq_true rfl, Nat.le_of_ble_eq_true rfl⟩
theorem ldi (op1 op2 : Byte) : Statement (.ldi op1 op2) := ⟨rfl, Nat.le_of_ble_eq_true rfl, Nat.le_of_ble_eq_true rfl⟩
theorem prn (op1 : Byte) : Statement (.prn op1) := ⟨rfl, Nat.le_of_ble_eq_true rfl, Nat.le_of_ble_eq_true rfl⟩
theorem mult (op1 op2 : Byte) : Statement (.mult op1 op2) := ⟨rfl, Nat.le_of_ble_eq_true rfl, Nat.le_of_ble_eq_true rfl⟩
theorem add (op1 op2 : Byte) : Statement (.add op1 op2) := ⟨rfl, Nat.le_of_ble_eq_true rfl, Nat.le_of_ble_eq_true rfl⟩
theorem push (op1 : Byte) : Statement (.push op1) := ⟨rfl, Nat.le_of_ble_eq_true rfl, Nat.le_of_ble_eq_true rfl⟩
theorem pop (op1 : Byte) : Statement (.pop op1) := ⟨rfl, Nat.le_of_ble_eq_true rfl, Nat.le_of_ble_eq_true rfl⟩
theorem call (op1 : Byte) : Statement (.call op1) := ⟨rfl, Nat.le_of_ble_eq_true rfl, Nat.le_of_ble_eq_true rfl⟩
theorem ret : Statement .ret := ⟨rfl, Nat.le_of_ble_eq_true rfl, Nat.le_of_ble_eq_true rfl⟩

end EncodeLength

/-! ### The observation of 30_encoding.md R56 on the nine opcodes: bits 7:6 count the operand bytes, bit 5 marks the ALU
instructions, bit 4 those that set `pc` directly -/

namespace OpcodeBits

/-- The instruction uses the ALU. -/
def usesAlu : Instr → Bool
  | .mult _ _ => true
  | .add _ _ => true
  | .hlt => false
  | .ldi _ _ => false
  | .prn _ => false
  | .push _ => false
  | .pop _ => false
  | .call _ => false
  | .ret => false

/-- The instruction sets `pc` directly. -/
def setsPc : Instr → Bool
  | .call _ => true
  | .ret => true
  | .hlt => false
  | .ldi _ _ => false
  | .prn _ => false
  | .mult _ _ => false
  | .add _ _ => false
  | .push _ => false
  | .pop _ => false

def Statement (i : Instr) : Prop :=
  i.opcode.toNat / 64 = i.operands.length ∧ i.opcode.getLsbD 5 = usesAlu i ∧ i.opcode.getLsbD 4 = setsPc i

theorem hlt : Statement .hlt :=
  ⟨show (0x01 : Byte).toNat / 64 = 0 from rfl, show (0x01 : Byte).getLsbD 5 = false from rfl,
    show (0x01 : Byte).getLsbD 4 = false from rfl⟩
theorem ldi (op1 op2 : Byte) : Statement (.ldi op1 op2) :=
  ⟨show (0x82 : Byte).toNat / 64 = 2 from rfl, show (0x82 : Byte).getLsbD 5 = false from rfl,
    show (0x82 : Byte).getLsbD 4 = false from rfl⟩
theorem prn (op1 : Byte) : Statement (.prn op1) :=
  ⟨show (0x47 : Byte).toNat / 64 = 1 from rfl, show (0x47 : Byte).getLsbD 5 = false from rfl,
    show (0x47 : Byte).getLsbD 4 = false from rfl⟩
theorem mult (op1 op2 : Byte) : Statement (.mult op1 op2) :=
  ⟨show (0xA2 : Byte).toNat / 64 = 2 from rfl, show (0xA2 : Byte).getLsbD 5 = true from rfl,
    show (0xA2 : Byte).getLsbD 4 = false from rfl⟩
theorem add (op1 op2 : Byte) : Statement (.add op1 op2) :=
  ⟨show (0xA0 : Byte).toNat / 64 = 2 from rfl, show (0xA0 : Byte).getLsbD 5 = true from rfl,
    show (0xA0 : Byte).getLsbD 4 = false from rfl⟩
theorem push (op1 : Byte) : Statement (.push op1) :=
  ⟨show (0x45 : Byte).toNat / 64 = 1 from rfl, show (0x45 : Byte).getLsbD 5 = false from rfl,
    show (0x45 : Byte).getLsbD 4 = false from rfl⟩
theorem pop (op1 : Byte) : Statement (.pop op1) :=
  ⟨show (0x46 : Byte).toNat / 64 = 1 from rfl, show (0x46 : Byte).getLsbD 5 = false from rfl,
    show (0x46 : Byte).getLsbD 4 = false from rfl⟩
theorem call (op1 : Byte) : Statement (.call op1) :=
  ⟨show (0x50 : Byte).toNat / 64 = 1 from rfl, show (0x50 : Byte).getLsbD 5 = false from rfl,
    show (0x50 : Byte).getLsbD 4 = true from rfl⟩
theorem ret : Statement .ret :=
  ⟨show (0x11 : Byte).toNat / 64 = 0 from rfl, show (0x11 : Byte).getLsbD 5 = false from rfl,
    show (0x11 : Byte).getLsbD 4 = true from rfl⟩

end OpcodeBits

end Sys2Proof.Laws
end

