-- ==== Sys2Proof/Laws/Step.lean ====
section
/-! SUPPORT. What a step does around the instruction (40_fetch_dispatch.md R70 to R72). -/

namespace Sys2Proof.Machine

/-- The one stop of `step`. -/
theorem step_of_halted {s : State} (h : s.halted = true) : step s = .fault .coreHalted := by simp [step, h]

/-- A running step is the fetched instruction, or the fault of the fetch. -/
theorem step_of_running {s : State} (h : s.halted = false) :
    step s = match fetchInstr s with
      | .ok i => exec i s
      | .error e => .next (takeFault s e) := by
  simp only [step, h]
  cases fetchInstr s <;> rfl

/-- With the window in memory, the fetch is the table lookup of its three bytes. -/
theorem fetchInstr_inside {s : State} (h : s.pc.toNat ≤ 253) :
    fetchInstr s = dispatch { opc := s.mem.read s.pc.toNat
                              op1 := s.mem.read (s.pc.toNat + 1)
                              op2 := s.mem.read (s.pc.toNat + 2) } := by
  unfold fetchInstr
  rw [fetchWindow_inside s h]
  rfl

theorem fetchInstr_254 {s : State} (h : s.pc.toNat = 254) : fetchInstr s = .error (.addressFault .mem 256) := by
  unfold fetchInstr
  rw [fetchWindow_254 s h]
  rfl

theorem fetchInstr_outside {s : State} (h : 255 ≤ s.pc.toNat) :
    fetchInstr s = .error (.addressFault .mem (s.pc.toNat + 1)) := by
  unfold fetchInstr
  rw [fetchWindow_outside s h]
  rfl

/-- A host write of the load phase keeps memory's canonical form. -/
theorem hostWrite_wf {s : State} (h : s.mem.wf = true) (addr data : Byte) : (hostWrite addr data s).mem.wf = true :=
  Memory.wf_write h addr.isLt data

/-- Placing an instruction keeps memory's canonical form. -/
theorem withFetchWord_wf {s : State} (h : s.mem.wf = true) (nbits w : Nat) : (s.withFetchWord nbits w).mem.wf = true := by
  have hp : (placeAddr s).toNat + 2 < 256 := by
    unfold placeAddr
    split
    · assumption
    · simp [Config.pcReset]
  exact Memory.wf_write (Memory.wf_write (Memory.wf_write h (show _ < 256 by omega) _) (show _ < 256 by omega) _)
    (show _ < 256 by omega) _

/-- One byte of the Loader inside memory (70_reset_and_hazards.md R132). -/
theorem loadBytes_inside {a : Nat} (h : a ≤ 255) (b : Byte) (rest : List Byte) (m : Memory) :
    loadBytes a (b :: rest) m = loadBytes (a + 1) rest (m.write a b) := by
  rw [loadBytes, memWrite_inside m b (by omega) (by omega)]
  rfl

/-- One byte of the Loader outside memory (70_reset_and_hazards.md R132). -/
theorem loadBytes_outside {a : Nat} (h : 255 < a) (b : Byte) (rest : List Byte) (m : Memory) :
    loadBytes a (b :: rest) m = .error (.addressFault .mem a) := by
  rw [loadBytes, memWrite_outside m b (by omega)]
  rfl

/-- What a lookup gives: an instruction of the nine, or the unknown opcode (40_fetch_dispatch.md R72). -/
theorem dispatch_of_ok {w : Window} {i : Instr} (h : decodeWindow w.opc w.op1 w.op2 = .ok i) : dispatch w = .ok i := by
  simp [dispatch, h]

theorem dispatch_of_unknown {w : Window} (h : w.opc ∉ definedOpcodes) : dispatch w = .error (.unknownOpcode w.opc) := by
  simp [dispatch, decodeWindow_unknown w.op1 w.op2 h]

/-- A lookup answers only what the decoder answers. -/
theorem dispatch_ok_iff {w : Window} {i : Instr} : dispatch w = .ok i ↔ decodeWindow w.opc w.op1 w.op2 = .ok i := by
  cases h : decodeWindow w.opc w.op1 w.op2 <;> simp [dispatch, h]

/-- Why a fetch raises (60_exceptions.md R116, items 1 to 3). -/
theorem fetchInstr_error {s : State} {e : Raise} (h : fetchInstr s = .error e) :
    (255 ≤ s.pc.toNat ∧ e = .addressFault .mem (s.pc.toNat + 1)) ∨ (s.pc.toNat = 254 ∧ e = .addressFault .mem 256) ∨
    (s.pc.toNat ≤ 253 ∧ s.mem.read s.pc.toNat ∉ definedOpcodes ∧ e = .unknownOpcode (s.mem.read s.pc.toNat)) := by
  by_cases h1 : 255 ≤ s.pc.toNat
  · rw [fetchInstr_outside h1] at h; cases h; exact .inl ⟨h1, rfl⟩
  · by_cases h2 : s.pc.toNat = 254
    · rw [fetchInstr_254 h2] at h; cases h; exact .inr (.inl ⟨h2, rfl⟩)
    · have h3 : s.pc.toNat ≤ 253 := by omega
      rw [fetchInstr_inside h3] at h
      by_cases h4 : s.mem.read s.pc.toNat ∈ definedOpcodes
      · obtain ⟨i, hi⟩ := decodeWindow_defined (s.mem.read (s.pc.toNat + 1)) (s.mem.read (s.pc.toNat + 2)) h4
        rw [dispatch_of_ok hi] at h; cases h
      · rw [dispatch_of_unknown h4] at h; cases h; exact .inr (.inr ⟨h3, h4, rfl⟩)

/-- A fetch that gives an instruction had its window in memory and decoded it. -/
theorem fetchInstr_ok {s : State} {i : Instr} (h : fetchInstr s = .ok i) :
    s.pc.toNat ≤ 253 ∧
    decodeWindow (s.mem.read s.pc.toNat) (s.mem.read (s.pc.toNat + 1)) (s.mem.read (s.pc.toNat + 2)) = .ok i := by
  by_cases h1 : 255 ≤ s.pc.toNat
  · rw [fetchInstr_outside h1] at h; cases h
  · by_cases h2 : s.pc.toNat = 254
    · rw [fetchInstr_254 h2] at h; cases h
    · have h3 : s.pc.toNat ≤ 253 := by omega
      rw [fetchInstr_inside h3] at h
      exact ⟨h3, dispatch_ok_iff.mp h⟩

/-- The inversion of `step`: it ran a fetched instruction, or took the fetch's fault. -/
theorem step_effect {s t : State} (h : step s = .next t) :
    s.halted = false ∧
    ((∃ i, fetchInstr s = .ok i ∧ Effect s i t) ∨ (∃ e, fetchInstr s = .error e ∧ t = takeFault s e)) := by
  cases hh : s.halted with
  | true => rw [step_of_halted hh] at h; cases h
  | false =>
    refine ⟨rfl, ?_⟩
    rw [step_of_running hh] at h
    cases hf : fetchInstr s with
    | ok i => rw [hf] at h; exact .inl ⟨i, rfl, exec_effect h⟩
    | error e => rw [hf] at h; cases h; exact .inr ⟨e, rfl, rfl⟩

end Sys2Proof.Machine
end

