-- ==== Sys2Proof/Tests/Slice0.lean ====
section
/-! SUPPORT. The model's own tests. Expected results are the spec's vectors (95_test_vectors.md, named in each comment) or words
written out from 30_encoding.md R55. The witnesses at the end meet the hypotheses of the statements of
Certificates/Slice0/Obligations.lean, at the ends of their ranges. -/

namespace Sys2Proof.Tests

open Sys2Proof.Machine

/-- A small state: memory, program counter and stack pointer as given, all else at reset. -/
def st (m : Memory) (pc : PcWord) (sp : Byte) : State :=
  { State.reset with mem := m, pc := pc, x := State.reset.x.set 7 sp }

/-- The same with `R0` and `R1` given. -/
def st2 (r0 r1 sp : Byte) : State := { State.reset with x := #v[r0, r1, 0, 0, 0, 0, 0, sp] }

/-- The next state, where there is one. -/
def after : Host.Outcome State Fault Refusal → Option State
  | .next s => some s
  | .fault _ => none
  | .refused _ => none

theorem after_some {o : Host.Outcome State Fault Refusal} {t : State} (h : after o = some t) : o = .next t := by
  cases o with
  | next s => cases h; rfl
  | fault r => cases h
  | refused r => cases h

/-! ### WellFormed refuses, one ill-formed term for each check -/

theorem test_wellFormed_ldi : (Instr.ldi 8 0).wellFormed = false := by decide
theorem test_wellFormed_prn : (Instr.prn 255).wellFormed = false := by decide
theorem test_wellFormed_mult_op1 : (Instr.mult 8 0).wellFormed = false := by decide
theorem test_wellFormed_mult_op2 : (Instr.mult 0 8).wellFormed = false := by decide
theorem test_wellFormed_add_op1 : (Instr.add 9 0).wellFormed = false := by decide
theorem test_wellFormed_add_op2 : (Instr.add 0 9).wellFormed = false := by decide
theorem test_wellFormed_push : (Instr.push 8).wellFormed = false := by decide
theorem test_wellFormed_pop : (Instr.pop 128).wellFormed = false := by decide
theorem test_wellFormed_call : (Instr.call 8).wellFormed = false := by decide
theorem test_wellFormed_accepts :
    [Instr.hlt, .ldi 7 255, .prn 7, .mult 7 7, .add 0 7, .push 0, .pop 7, .call 1, .ret].all Instr.wellFormed = true := by
  decide

/-! ### Decoding, each constructor by a word written out from 30_encoding.md R55 and R51 -/

theorem test_decode_hlt : decode [0b00000001] = .ok (.hlt, []) := rfl
theorem test_decode_ldi : decode [0b10000010, 0b00000000, 0b00001000] = .ok (.ldi 0 8, []) := rfl
theorem test_decode_prn : decode [0b01000111, 0b00000111] = .ok (.prn 7, []) := rfl
theorem test_decode_mult : decode [0b10100010, 0b00000000, 0b00000001] = .ok (.mult 0 1, []) := rfl
theorem test_decode_add : decode [0b10100000, 0b00000011, 0b00000010] = .ok (.add 3 2, []) := rfl
theorem test_decode_push : decode [0b01000101, 0b00000110] = .ok (.push 6, []) := rfl
theorem test_decode_pop : decode [0b01000110, 0b00000101] = .ok (.pop 5, []) := rfl
theorem test_decode_call : decode [0b01010000, 0b00000001] = .ok (.call 1, []) := rfl
theorem test_decode_ret : decode [0b00010001, 0b11111111] = .ok (.ret, [0b11111111]) := rfl
/-- V-F3: one bit off LDI is no instruction; R56's other example. -/
theorem test_decode_0x83 : decode [0x83, 0, 1] = .error (.unknownOpcode 0x83) := rfl
theorem test_decode_0xA1 : decode [0xA1, 0, 1] = .error (.unknownOpcode 0xA1) := rfl
theorem test_decode_truncated : decode [0x82, 0] = .error .truncated := rfl
/-- No two rows of the opcode table overlap. -/
theorem test_table_disjoint :
    opcodeTable.Pairwise (fun a b => a.pattern &&& (a.mask &&& b.mask) ≠ b.pattern &&& (a.mask &&& b.mask)) := by decide
/-- The table's length and format columns are the encoder's. -/
theorem test_table_columns :
    opcodeTable.map (fun r => (r.pattern, r.format, r.length)) =
      [Instr.hlt, .ldi 0 0, .prn 0, .mult 0 0, .add 0 0, .push 0, .pop 0, .call 0, .ret].map
        (fun i => (i.opcode, i.format, i.length)) := by decide
/-- `82 03 07` numbered as the opcode table numbers it. -/
theorem test_decodeTableWord : decodeTableWord 24 0x070382 = some (.ldi 3 7) := by decide
theorem test_decodeTableWord_short : decodeTableWord 8 0x11 = some .ret := by decide
/-- 30_encoding.md R60. -/
theorem test_assembly : (Instr.ldi 0 8).assembly = "LDI R0,8" := by decide

/-! ### The step and the fetch window -/

/-- V-W1: the last address at which an instruction executes. -/
theorem test_step_253 : step (st [(253, 0x01), (254, 0xFF), (255, 0xFF)] 253 0xF4) =
    .next { st [(253, 0x01), (254, 0xFF), (255, 0xFF)] 253 0xF4 with halted := true } := rfl
/-- V-W2: HLT at 254 does not halt cleanly. -/
theorem test_step_254 : (after (step (st [(254, 0x01)] 254 0xF4))).map (·.fault) =
    some ⟨.addressFault, 254, .mem, 256, 0⟩ := by decide
/-- V-W4, second step: `pc` does not wrap. -/
theorem test_step_256 : (after (step (st [] 256 0xF4))).map (fun t => (t.halted, t.pc, t.fault)) =
    some (true, 256, ⟨.addressFault, 256, .mem, 257, 0⟩) := by decide
/-- V-F1. -/
theorem test_step_unknown : (after (step (st [(0, 0xFF)] 0 0xF4))).map (fun t => (t.pc, t.fault)) =
    some (0, ⟨.unknownOpcode, 0, .mem, 0, 0xFF⟩) := by decide
/-- V-F5. -/
theorem test_step_halted : step { State.reset with halted := true } = .fault .coreHalted := rfl

/-! ### Instructions, one step each on `bytes at pc` of the vector -/

/-- V-H1. -/
theorem test_hlt : exec .hlt (st [(0, 0x01)] 0 0xF4) = .next { st [(0, 0x01)] 0 0xF4 with halted := true } := rfl
/-- V-L2. -/
theorem test_ldi_r7 : (after (exec (.ldi 7 0x20) State.reset)).map (fun t => (t.x[7], t.pc)) = some (0x20, 3) := by decide
/-- V-L4: index 8 is not masked. -/
theorem test_ldi_index8 : (after (exec (.ldi 8 1) State.reset)).map (fun t => (t.x[0], t.pc, t.fault)) =
    some (0, 0, ⟨.addressFault, 0, .reg, 8, 0⟩) := by decide
/-- V-P2. -/
theorem test_prn_r7 : (after (exec (.prn 7) State.reset)).map (fun t => (t.out, t.pc)) = some ([244], 2) := by decide
/-- V-P3. -/
theorem test_prn_index255 : (after (exec (.prn 255) State.reset)).map (fun t => (t.out, t.halted, t.fault)) =
    some ([], true, ⟨.addressFault, 0, .reg, 255, 0⟩) := by decide
/-- V-M7. -/
theorem test_mult_wraps : (after (exec (.mult 0 1) (st2 0xC8 0x64 0xF4))).map (fun t => (t.x[0], t.x[1], t.pc)) =
    some (0x20, 0x64, 3) := by decide
/-- V-M5. -/
theorem test_mult_op2_index : (after (exec (.mult 0 8) (st2 5 0 0xF4))).map (fun t => (t.x[0], t.fault)) =
    some (5, ⟨.addressFault, 0, .reg, 8, 0⟩) := by decide
/-- V-A1. -/
theorem test_add_wraps : (after (exec (.add 0 1) (st2 0xC8 0x64 0xF4))).map (fun t => (t.x[0], t.x[1], t.pc)) =
    some (0x2C, 0x64, 3) := by decide
/-- V-A5: the first operand is reported. -/
theorem test_add_op1_first : (after (exec (.add 9 8) State.reset)).map (·.fault) =
    some ⟨.addressFault, 0, .reg, 9, 0⟩ := by decide
/-- V-S3: the new SP is what is pushed. -/
theorem test_push_r7 : (after (exec (.push 7) State.reset)).map (fun t => (t.x[7], t.mem, t.pc)) =
    some (0xF3, [(0xF3, 0xF3)], 2) := by decide
/-- V-S5: SP does not wrap. -/
theorem test_push_overflow : (after (exec (.push 0) (st2 0 0 0))).map (fun t => (t.x[7], t.mem, t.fault)) =
    some (0, [], ⟨.addressFault, 0, .mem, -1, 0⟩) := by decide
/-- V-S4: popped byte plus 1. -/
theorem test_pop_r7 : (after (exec (.pop 7) (st [(0xF3, 0x20)] 0 0xF3))).map (fun t => (t.x[7], t.pc)) =
    some (0x21, 2) := by decide
/-- V-S2. -/
theorem test_pop_r1 : (after (exec (.pop 1) (st [(0xF3, 0xAA)] 8 0xF3))).map (fun t => (t.x[1], t.x[7], t.mem, t.pc)) =
    some (0xAA, 0xF4, [(0xF3, 0xAA)], 10) := by decide
/-- V-C3: the target is the new SP. -/
theorem test_call_r7 : (after (exec (.call 7) State.reset)).map (fun t => (t.x[7], t.mem, t.pc)) =
    some (0xF3, [(0xF3, 0x02)], 0xF3) := by decide
/-- V-C1. -/
theorem test_call_r1 : (after (exec (.call 1) { st2 0 0x10 0xF4 with pc := 9 })).map (fun t => (t.mem, t.pc)) =
    some ([(0xF3, 0x0B)], 0x10) := by decide
/-- V-C2. -/
theorem test_ret : (after (exec .ret (st [(0xF3, 0x0B)] 0x15 0xF3))).map (fun t => (t.pc, t.x[7])) =
    some (0x0B, 0xF4) := by decide
/-- V-R1. -/
theorem test_ret_underflow : (after (exec .ret (st [(0, 0x11)] 0 0xFF))).map (fun t => (t.pc, t.x[7], t.fault)) =
    some (0, 0xFF, ⟨.addressFault, 0, .mem, 256, 0⟩) := by decide
/-- V-S10: a push over the program, seen by the next fetch. -/
theorem test_push_over_code : (after (exec (.push 0) (st2 0x77 0 1))).map (fun t => t.mem) = some [(0, 0x77)] := by decide

/-! ### Memory and the host -/

/-- Writing the reset byte removes the entry. -/
theorem test_memory_canonical : Memory.write [(3, 1), (5, 2)] 3 0 = [(5, 2)] := by decide
/-- Scenario A's image (S-A), loaded at 0. -/
theorem test_launch : (after (launch [0x82, 0x00, 0x08, 0x47, 0x00, 0x01])).map (·.mem) =
    some [(0, 0x82), (2, 0x08), (3, 0x47), (5, 0x01)] := by decide
/-- `STRICT_FETCH_WINDOW` and a placed instruction: step runs it as the first after reset. -/
theorem test_withFetchWord : (after (step (State.reset.withFetchWord 24 0x070382))).map (fun t => (t.x[3], t.pc)) =
    some (7, 3) := by decide
/-- 41_halt_load_print.md R87: 30 is printed as the line `30`. -/
theorem test_printedLines : printedLines { State.reset with out := [30, 255] } = ["30", "255"] := by decide
/-- 70_reset_and_hazards.md R135: -1 on ten bits. -/
theorem test_ports : ({ State.reset with fault := ⟨.addressFault, 0, .mem, -1, 0⟩ } : State).ports.faultAddr = 0x3FF := by
  decide

/-! ### Witnesses for the hypotheses of the statements -/

/-- A running small state meets the invariant. -/
theorem inv_st {m : Memory} {pc : PcWord} {sp : Byte} (hm : m.wf = true) (hp : pc.toNat ≤ 256) : Inv (st m pc sp) :=
  ⟨hm, hp, fun _ => rfl, fun h => absurd rfl h, rfl⟩

theorem witness_LaunchStateIsImageOverReset : (List.replicate 256 (0xFF : Byte)).length ≤ 256 :=
  Nat.le_of_eq List.length_replicate
theorem witness_LongImageIsRefused : 256 < (List.replicate 257 (0xFF : Byte)).length :=
  Nat.lt_of_lt_of_eq (Nat.lt_succ_self 256) List.length_replicate.symm
theorem witness_FirstStepFetchesAtZero : launch [0x01] = .next (st [(0, 0x01)] 0 0xF4) := rfl
theorem witness_HostInputsByPhase_load : ({ phase := .load, core := st [] 0 0xF4 } : System).phase = .load ∧
    (st [] 0 0xF4).mem.wf = true := ⟨rfl, rfl⟩
theorem witness_HostInputsByPhase_run : ({ phase := .run, core := State.reset } : System).phase = .run ∧
    step State.reset = .next (takeFault State.reset (.unknownOpcode 0)) := ⟨rfl, rfl⟩
theorem witness_PortsCarryTheFaultRecord_low : Inv (takeFault (st [] 0 0) (.addressFault .mem (-1))) :=
  ⟨rfl, by decide, (fun h => by cases h), (fun _ => ⟨rfl, rfl⟩), ⟨rfl, by decide, .inl ⟨rfl, .inl rfl⟩⟩⟩
theorem witness_PortsCarryTheFaultRecord_high : Inv (takeFault (st [] 256 0) (.addressFault .mem 257)) :=
  ⟨rfl, by decide, (fun h => by cases h), (fun _ => ⟨rfl, rfl⟩), ⟨rfl, by decide, .inl ⟨rfl, .inr (.inr rfl)⟩⟩⟩
theorem witness_DecodeOfEncodeIsTheInstruction :
    FetchInRange (st [(253, 0x82), (254, 0x07), (255, 0xFF)] 253 0xF4) ∧
    ∀ k : Nat, k < (Instr.ldi 7 255).length →
      (st [(253, 0x82), (254, 0x07), (255, 0xFF)] 253 0xF4).mem.read (253 + k) = (encode (.ldi 7 255)).getD k 0 := by decide
theorem witness_EncodeOfDecodeIsTheBytes : decode [0x11, 0x47] = .ok (.ret, [0x47]) := rfl
theorem witness_LengthByOpcode_defined : decodeWindow 0x50 8 0 = .ok (.call 8) := rfl
theorem witness_LengthByOpcode_undefined : (st [] 0 0xF4).halted = false ∧ FetchInRange (st [] 0 0xF4) ∧
    (st [] 0 0xF4).mem.read 0 ∉ ([0x01, 0x11, 0x47, 0x45, 0x46, 0x50, 0x82, 0xA2, 0xA0] : List Byte) := by decide
theorem witness_CheckedReadsAndWrites_inside : Memory.wf [(255, 1)] = true ∧ ((0 : Int) ≤ 255 ∧ (255 : Int) ≤ 255) := by decide
theorem witness_CheckedReadsAndWrites_below : Memory.wf [(255, 1)] = true ∧ ¬ ((0 : Int) ≤ -1 ∧ (-1 : Int) ≤ 255) := by decide
theorem witness_CheckedReadsAndWrites_above : Memory.wf [(255, 1)] = true ∧ ¬ ((0 : Int) ≤ 256 ∧ (256 : Int) ≤ 255) := by decide
theorem witness_CanonicalMemories : Memory.wf [(0, 1), (255, 2)] = true ∧
    ∀ a : Nat, a < 256 → Memory.read [(0, 1), (255, 2)] a = Memory.read [(0, 1), (255, 2)] a := ⟨by decide, fun _ _ => rfl⟩
theorem witness_HaltedCoreIsStuck : State.reset.halted = false ∧ State.reset.halt.halted = true := ⟨rfl, rfl⟩
theorem witness_StepRunsTheDecodedInstruction : (st [(253, 0x01)] 253 0xF4).halted = false ∧
    FetchInRange (st [(253, 0x01)] 253 0xF4) ∧ decodeWindow 0x01 0 0 = .ok .hlt ∧
    (st [(253, 0x01)] 253 0xF4).mem.read 253 = 0x01 := ⟨rfl, by decide, rfl, rfl⟩
theorem witness_FetchWindowFaults : (st [] 254 0).halted = false ∧ (st [] 254 0).pc.toNat = 254 ∧
    (st [] 255 0).halted = false ∧ 255 ≤ (st [] 255 0).pc.toNat := by decide
theorem witness_UnknownOpcodeFaults : (st [] 253 0xF4).halted = false ∧ FetchInRange (st [] 253 0xF4) ∧
    (st [] 253 0xF4).mem.read 253 ∉ ([0x01, 0x82, 0x47, 0xA2, 0xA0, 0x45, 0x46, 0x50, 0x11] : List Byte) := by decide

/-- The state of V-W4, from which `pc` reaches 256. -/
def last : State := st [(253, 0x82), (254, 0x01), (255, 0x07)] 253 0xF4

theorem witness_PcAfterEachInstruction : Inv last ∧ fetchInstr last = .ok (.ldi 1 7) ∧
    ∃ t, step last = .next t ∧ t.fault.cause = .none ∧ t.pc.toNat = 256 :=
  ⟨inv_st (by decide) (by decide), (fetchInstr_inside (by decide)).trans rfl, { last with x := last.x.set 1 7, pc := 256 },
    after_some (by decide), rfl, rfl⟩
theorem witness_PcAfterEachInstruction_fault : Inv (st [] 256 0) ∧
    ∃ t, step (st [] 256 0) = .next t ∧ t.fault.cause ≠ .none := ⟨inv_st rfl (by decide), _, rfl, by decide⟩
theorem witness_HltHalts : FetchInRange (st [(253, 0x01)] 253 0xF4) ∧ Inv (st [(253, 0x01)] 253 0xF4) ∧
    ∃ t, step (st [(253, 0x01)] 253 0xF4) = .next t ∧ CleanHalt t :=
  ⟨by decide, inv_st (by decide) (by decide), _, rfl, rfl, rfl⟩
theorem witness_HltHalts_late : (st [(254, 0x01)] 254 0xF4).halted = false ∧ (st [(254, 0x01)] 254 0xF4).pc.toNat = 254 ∧
    (st [(255, 0x01)] 255 0xF4).halted = false ∧ (st [(255, 0x01)] 255 0xF4).pc.toNat = 255 := by decide
theorem witness_LdiLoadsItsImmediate : FetchInRange last ∧ (7 : Byte).toNat < 8 ∧ 7 < (8 : Byte).toNat := by decide
theorem witness_PrnEmitsItsRegister : FetchInRange last ∧ (7 : Byte).toNat < 8 ∧ 7 < (255 : Byte).toNat := by decide
theorem witness_MultAndAddModulo256 : (7 : Byte).toNat < 8 ∧ (0 : Byte).toNat < 8 ∧ FetchInRange last := by decide
/-- PUSH and CALL at the lowest SP that stores. -/
theorem witness_PushStoresBelowSp : (7 : Byte).toNat < 8 ∧ FetchInRange (st [] 253 1) ∧ (st [] 253 1).mem.wf = true ∧
    (st [] 253 1).x[7] ≠ 0 := by decide
theorem witness_CallPushesReturnAddressAndJumps : (7 : Byte).toNat < 8 ∧ FetchInRange (st [] 253 1) ∧
    (st [] 253 1).mem.wf = true ∧ (st [] 253 1).x[7] ≠ 0 := by decide
/-- POP at the highest SP that pops, and POP R7 at the highest byte. -/
theorem witness_PopLoadsFromSp : (6 : Byte).toNat < 8 ∧ FetchInRange (st [] 253 254) ∧ (6 : Byte) ≠ 7 ∧
    (st [] 253 254).x[7] ≠ 255 := by decide
theorem witness_PopLoadsFromSp_r7 : (7 : Byte).toNat < 8 ∧ FetchInRange (st [(255, 254)] 0 255) ∧
    (st [(255, 254)] 0 255).mem.read (st [(255, 254)] 0 255).x[7].toNat ≠ 255 := by decide
theorem witness_RetPopsThePc : FetchInRange (st [] 253 254) ∧ (st [] 253 254).x[7] ≠ 255 ∧ FetchInRange (st [] 0 255) ∧
    (st [] 0 255).x[7] = 255 := by decide
theorem witness_RegisterIndexFaults : 7 < (8 : Byte).toNat ∧ (7 : Byte).toNat ≤ 7 := by decide
theorem witness_StackBoundsFaults : (0 : Byte).toNat ≤ 7 ∧ (st [] 0 0).x[7] = 0 ∧ (0 : Byte) ≠ 7 ∧
    (st [] 0 255).x[7] = 255 := by decide
theorem witness_StackBoundsFaults_r7 : (7 : Byte).toNat ≤ 7 ∧ (st [(0xF3, 255)] 0 0xF3).mem.read
    (st [(0xF3, 255)] 0 0xF3).x[7].toNat = 255 := by decide
/-- SP at the ends of its range without a fault: PUSH and CALL down to 0, POP and RET up to 255, `POP R7` to 255. -/
theorem witness_StackBoundsFaults_moves : ∃ t u v w y, exec (.push 0) (st [] 0 1) = .next t ∧ t.x[7] = 0 ∧
    exec (.call 0) (st [] 0 1) = .next u ∧ u.x[7] = 0 ∧ exec (.pop 0) (st [] 0 254) = .next v ∧ v.x[7] = 255 ∧
    exec .ret (st [] 0 254) = .next w ∧ w.x[7] = 255 ∧ exec (.pop 7) (st [(255, 254)] 0 255) = .next y ∧ y.x[7] = 255 :=
  ⟨_, _, _, _, _, rfl, by decide, rfl, by decide, rfl, by decide, rfl, by decide, rfl, by decide⟩
/-- V-S8: the index is reported before the stack. -/
theorem witness_FaultsFollowThePriorityList : (st [(0, 0x45), (1, 9)] 0 0).halted = false ∧
    firstFault (st [(0, 0x45), (1, 9)] 0 0) = some (.addressFault .reg 9) ∧ firstFault last = none := by decide
theorem witness_FaultChangesOnlyLatchAndRecord : Inv (st [(0, 0x45)] 0 0) ∧
    ∃ t, step (st [(0, 0x45)] 0 0) = .next t ∧ t.fault.cause ≠ .none := ⟨inv_st (by decide) (by decide), _, rfl, by decide⟩
theorem witness_RunEndsByHltOrFault : Inv (st [(253, 0x01)] 253 0xF4) ∧
    ∃ t, step (st [(253, 0x01)] 253 0xF4) = .next t ∧ t.halted = true := ⟨inv_st (by decide) (by decide), _, rfl, rfl⟩
theorem witness_FrameRegisterWriters : ∃ t, exec (.add 7 0) last = .next t ∧ (7 : Byte).toNat ≤ 7 ∧ (0 : Byte).toNat ≤ 7 :=
  ⟨_, rfl, by decide, by decide⟩
theorem witness_FrameHltAndPrn : ∃ t u, exec .hlt last = .next t ∧ exec (.prn 7) last = .next u := ⟨_, _, rfl, rfl⟩
theorem witness_FrameStackWriters : ∃ t u, exec (.push 0) (st [] 0 1) = .next t ∧ exec (.call 0) (st [] 0 0) = .next u ∧
    spBelow (st [] 0 1).sp = .ok 0 ∧ spBelow (st [] 0 0).sp = .error (.addressFault .mem (-1)) := ⟨_, _, rfl, rfl, rfl, rfl⟩
theorem witness_FrameStackReaders : ∃ t u, exec (.pop 0) (st [] 0 254) = .next t ∧ exec .ret (st [] 0 254) = .next u ∧
    (st [] 0 254).x[7] ≠ 255 :=
  ⟨st [] 2 255, st [] 0 255, after_some (by decide), after_some (by decide), by decide⟩
theorem witness_StepKeepsInvariant : Inv last ∧ ∃ t, step last = .next t := ⟨inv_st (by decide) (by decide), _, rfl⟩
theorem witness_ReachableStatesMeetInvariant : Reachable (takeFault State.reset (.unknownOpcode 0)) := .step .reset rfl
theorem witness_OutputGrowsByPrnAlone : ∃ t, step (st [(0, 0x47), (1, 7)] 0 0xF4) = .next t ∧ t.out = [0xF4] :=
  ⟨_, rfl, by decide⟩
theorem witness_OnlyPushAndCallStore : ∃ t, step (st [(0, 0x50), (1, 7)] 0 0xF4) = .next t ∧
    t.mem.read 0xF3 ≠ (st [(0, 0x50), (1, 7)] 0 0xF4).mem.read 0xF3 := ⟨_, rfl, by decide⟩
theorem witness_RegistersChangedByOpcode : ∃ t, step last = .next t ∧ t.x[(1 : RegIndex)] ≠ last.x[(1 : RegIndex)] :=
  ⟨_, rfl, by decide⟩
/-- The lowest SP that stores, at the highest `pc` that is fetched. -/
theorem witness_StoreIsSeenByTheNextFetch : (7 : Byte).toNat < 8 ∧ FetchInRange (st [] 253 1) ∧ (st [] 253 1).mem.wf = true ∧
    (st [] 253 1).x[7] ≠ 0 := by decide
/-- PUSH whose new SP is the opcode's, first operand's and second operand's address of the next fetch, at the highest cells. -/
theorem witness_StoreIsSeenByTheNextFetch_push : ∃ t u w, exec (.push 0) (st [] 251 254) = .next t ∧
    exec (.push 0) (st [] 251 255) = .next u ∧ exec (.push 0) (st [] 250 255) = .next w ∧
    (FetchInRange t ∧ t.pc.toNat = t.x[7].toNat) ∧ (FetchInRange u ∧ u.pc.toNat + 1 = u.x[7].toNat) ∧
    (FetchInRange w ∧ w.pc.toNat + 2 = w.x[7].toNat) := ⟨_, _, _, rfl, rfl, rfl, by decide, by decide, by decide⟩
/-- CALL to address 0 whose new SP is the opcode's, first operand's and second operand's address there. -/
theorem witness_StoreIsSeenByTheNextFetch_call : ∃ t u w, exec (.call 0) (st [] 0 1) = .next t ∧
    exec (.call 0) (st [] 0 2) = .next u ∧ exec (.call 0) (st [] 0 3) = .next w ∧
    (FetchInRange t ∧ t.pc.toNat = t.x[7].toNat) ∧ (FetchInRange u ∧ u.pc.toNat + 1 = u.x[7].toNat) ∧
    (FetchInRange w ∧ w.pc.toNat + 2 = w.x[7].toNat) := ⟨_, _, _, rfl, rfl, rfl, by decide, by decide, by decide⟩
theorem witness_PushThenPopRoundTrips : (6 : Byte).toNat < 7 ∧ (0 : Byte).toNat < 7 ∧ (st [] 0 1).mem.wf = true ∧
    1 ≤ (st [] 0 1).x[7].toNat := by decide
theorem witness_CallThenRetIsStackNeutral : (7 : Byte).toNat < 8 ∧ FetchInRange (st [] 253 1) ∧
    (st [] 253 1).mem.wf = true ∧ 1 ≤ (st [] 253 1).x[7].toNat := by decide

end Sys2Proof.Tests
end

/-! PROOFS. The length of an instruction and the unknown opcode (30_encoding.md R54, R57). -/

namespace Sys2Proof

/-- Every instruction's encoding has its length, one to three bytes. -/
theorem encodeLength_statement : ∀ i : Instr, Laws.EncodeLength.Statement i
  | .hlt => Laws.EncodeLength.hlt
  | .ldi op1 op2 => Laws.EncodeLength.ldi op1 op2
  | .prn op1 => Laws.EncodeLength.prn op1
  | .mult op1 op2 => Laws.EncodeLength.mult op1 op2
  | .add op1 op2 => Laws.EncodeLength.add op1 op2
  | .push op1 => Laws.EncodeLength.push op1
  | .pop op1 => Laws.EncodeLength.pop op1
  | .call op1 => Laws.EncodeLength.call op1
  | .ret => Laws.EncodeLength.ret

@[simp] theorem encode_length (i : Instr) : (encode i).length = i.length := (encodeLength_statement i).1

/-- The decoder answers only the instruction whose opcode byte it was given. -/
theorem opcode_of_decodeWindow {opc op1 op2 : Byte} {i : Instr} (h : decodeWindow opc op1 op2 = .ok i) :
    i.opcode = opc := by
  obtain h | h | h | h | h | h | h | h | h := decodeWindow_cases h <;>
  · obtain ⟨rfl, rfl⟩ := h
    rfl

/-- The three lengths, each with the opcodes that have it (30_encoding.md R54). -/
theorem opcode_length_cases (i : Instr) :
    i.opcode ∈ ([0x01, 0x11] : List Byte) ∧ i.length = 1 ∨
    i.opcode ∈ ([0x47, 0x45, 0x46, 0x50] : List Byte) ∧ i.length = 2 ∨
    i.opcode ∈ ([0x82, 0xA2, 0xA0] : List Byte) ∧ i.length = 3 := by
  cases i with
  | hlt | ret => exact .inl ⟨by simp [Instr.opcode], rfl⟩
  | prn | push | pop | call => exact .inr (.inl ⟨by simp [Instr.opcode], rfl⟩)
  | ldi | mult | add => exact .inr (.inr ⟨by simp [Instr.opcode], rfl⟩)

/-- The opcode table in the order of R54, by length. -/
theorem definedOpcodes_perm_byLength :
    definedOpcodes.Perm [0x01, 0x11, 0x47, 0x45, 0x46, 0x50, 0x82, 0xA2, 0xA0] := by decide

/-- The numbers of the bytes in a list, without repetition, are those below 256 that name one of them. -/
theorem filter_range_mem_perm {l : List Byte} (hl : l.Nodup) :
    ((List.range 256).filter fun n => decide (BitVec.ofNat 8 n ∈ l)).Perm (l.map BitVec.toNat) := by
  refine (List.perm_ext_iff_of_nodup (List.nodup_range.filter _) (hl.map BitVec.toNat_injective)).mpr fun n => ?_
  simp only [List.mem_filter, List.mem_range, decide_eq_true_eq, List.mem_map]
  constructor
  · rintro ⟨hn, hmem⟩
    exact ⟨_, hmem, (BitVec.toNat_ofNat n 8).trans (Nat.mod_eq_of_lt hn)⟩
  · rintro ⟨b, hb, rfl⟩
    exact ⟨b.isLt, by rwa [BitVec.ofNat_toNat, BitVec.setWidth_eq]⟩

/-- Of the 256 bytes, all but those in the list are outside it. -/
theorem length_filter_range_not_mem {l : List Byte} (hl : l.Nodup) :
    ((List.range 256).filter fun n => decide (BitVec.ofNat 8 n ∉ l)).length = 256 - l.length := by
  have hin := (filter_range_mem_perm hl).length_eq
  have hall := List.length_eq_length_filter_add (l := List.range 256) fun n => decide (BitVec.ofNat 8 n ∈ l)
  simp only [List.length_map, List.length_range, ← decide_not] at hin hall
  omega

theorem definedOpcodes_nodup : definedOpcodes.Nodup := by decide

namespace Machine

/-- A running step on a byte that is no opcode takes the fault UnknownOpcode (40_fetch_dispatch.md R72). -/
theorem step_of_unknownOpcode {s : State} (hrun : s.halted = false) (hpc : FetchInRange s)
    (hopc : s.mem.read s.pc.toNat ∉ definedOpcodes) :
    step s = .next (takeFault s (.unknownOpcode (s.mem.read s.pc.toNat))) := by
  rw [step_of_running hrun, fetchInstr_inside hpc, dispatch_of_unknown hopc]

/-- A halted state has no next state (40_fetch_dispatch.md R70). -/
theorem step_ne_next_of_halted {s : State} (h : s.halted = true) (t : State) : step s ≠ .next t := by
  simp [step_of_halted h]

/-- Taking a fault ends the run, with the fault on record (40_fetch_dispatch.md R78). -/
theorem takeFault_faultedEnd (s : State) (e : Raise) : FaultedEnd (takeFault s e) :=
  ⟨takeFault_halted s e, faultRecord_cause_ne_none s.pc e⟩

/-- Settles O10: the length is read off the opcode of what was decoded, and a byte outside the table takes a fault. -/
theorem lengthByOpcode : Obligations.LengthByOpcode := by
  unfold Obligations.LengthByOpcode
  refine ⟨fun opc op1 op2 i hdec => ?_, fun s hrun hpc hopc => ?_⟩
  · obtain rfl := opcode_of_decodeWindow hdec
    exact ⟨encode_length i, opcode_length_cases i⟩
  · rw [← definedOpcodes_perm_byLength.mem_iff] at hopc
    exact ⟨_, step_of_unknownOpcode hrun hpc hopc, takeFault_faultedEnd s _, takeFault_pc s _⟩

/-- Settles O17: the count, and the fault taken from the step's start, which halts and changes only latch and record. -/
theorem unknownOpcodeFaults : Obligations.UnknownOpcodeFaults := by
  unfold Obligations.UnknownOpcodeFaults
  refine ⟨length_filter_range_not_mem definedOpcodes_nodup, fun s hrun hpc hopc => ?_⟩
  refine ⟨_, step_of_unknownOpcode hrun hpc hopc, takeFault_halted s _, ?_⟩
  exact ⟨rfl, rfl, rfl, rfl, rfl, rfl, rfl, step_ne_next_of_halted (takeFault_halted s _)⟩

end Machine

end Sys2Proof

/-! PROOFS. When a step is taken, and what it runs (40_fetch_dispatch.md R70, R72). -/

namespace Sys2Proof.Machine

/-- Every meaning answers a next state: it is settled, and a settled step never stops the machine. -/
theorem exec_next (i : Instr) (s : State) : ∃ t, exec i s = .next t := by
  obtain ⟨r, hr⟩ := exec_settles i s
  rw [hr]
  exact settle_next s r

/-- A running core has a next state, the instruction's or the fetch fault's (40_fetch_dispatch.md R70). -/
theorem step_next_of_running {s : State} (hrun : s.halted = false) : ∃ t, step s = .next t := by
  rw [step_of_running hrun]
  cases fetchInstr s with
  | ok i => exact exec_next i s
  | error e => exact ⟨takeFault s e, rfl⟩

/-- A running step whose window is in memory performs what the window decodes to (40_fetch_dispatch.md R72). -/
theorem step_of_decodeWindow {s : State} {i : Instr} (hrun : s.halted = false) (hpc : FetchInRange s)
    (hdec : decodeWindow (s.mem.read s.pc.toNat) (s.mem.read (s.pc.toNat + 1)) (s.mem.read (s.pc.toNat + 2)) = .ok i) :
    step s = exec i s := by
  rw [step_of_running hrun, fetchInstr_inside hpc, dispatch_of_ok hdec]

/-- Settles O13: a halted state has no next state, and a running state has a next state. -/
theorem stepTakenIffRunning : Obligations.StepTakenIffRunning := by
  unfold Obligations.StepTakenIffRunning
  intro s
  constructor
  · rintro ⟨t, ht⟩
    exact Bool.eq_false_of_not_eq_true fun hhalt => step_ne_next_of_halted hhalt t ht
  · exact step_next_of_running

/-- Settles O15: the window's instruction where it decodes, the fault UnknownOpcode where its first byte is no opcode. -/
theorem stepRunsTheDecodedInstruction : Obligations.StepRunsTheDecodedInstruction := by
  unfold Obligations.StepRunsTheDecodedInstruction
  intro s hrun hpc
  exact ⟨fun i hdec => step_of_decodeWindow hrun hpc hdec, step_of_unknownOpcode hrun hpc⟩

end Sys2Proof.Machine

/-! PROOFS. The launch state and its first fetch (70_reset_and_hazards.md R131). -/

namespace Sys2Proof.Machine

/-- A launch loads memory and leaves the rest of the reset state as it is (70_reset_and_hazards.md R132, R133). -/
theorem eq_reset_of_launch {image : List Byte} {s : State} (h : launch image = .next s) :
    s = { State.reset with mem := s.mem } := by
  unfold launch at h
  cases hload : loadBytes Config.loadBase image State.reset.mem with
  | ok m =>
    rw [hload] at h
    cases h
    rfl
  | error e =>
    rw [hload] at h
    cases h

/-- The reset vector: a launch state's program counter is 0 (70_reset_and_hazards.md R131). -/
theorem pc_of_launch {image : List Byte} {s : State} (h : launch image = .next s) : s.pc = 0 :=
  congrArg State.pc (eq_reset_of_launch h)

/-- Settles O4: the launch state's pc is the reset vector, whose window is in memory. -/
theorem firstStepFetchesAtZero : Obligations.FirstStepFetchesAtZero := by
  unfold Obligations.FirstStepFetchesAtZero
  intro image s hlaunch
  have hpc : s.pc = 0 := pc_of_launch hlaunch
  have haddr : s.pc.toNat = 0 := congrArg BitVec.toNat hpc
  have hwindow := fetchWindow_inside s (by omega)
  rw [haddr] at hwindow
  exact ⟨hpc, hwindow⟩

end Sys2Proof.Machine

/-! PROOFS. The encoding round trip, on lists, on windows and in memory (30_encoding.md sections 1 to 3). -/

namespace Sys2Proof

/-- The decoder inverts the opcode and the operands; window bytes the instruction does not own are ignored (R59). -/
theorem decodeWindow_opcode_operands (i : Instr) (pad1 pad2 : Byte) :
    decodeWindow i.opcode (i.operands.getD 0 pad1) (i.operands.getD 1 pad2) = .ok i := by
  cases i <;> rfl

/-- The operands are the bytes after the opcode (R50). -/
theorem operands_length (i : Instr) : i.operands.length = i.length - 1 := by
  rw [← encode_length i]
  rfl

theorem length_le_three (i : Instr) : i.length ≤ 3 := (encodeLength_statement i).2.2

/-- The decoder's operands are the window's bytes after the opcode, as many as the instruction owns. -/
theorem operands_of_decodeWindow {opc op1 op2 : Byte} {i : Instr} (h : decodeWindow opc op1 op2 = .ok i) :
    i.operands = [op1, op2].take (i.length - 1) := by
  obtain h | h | h | h | h | h | h | h | h := decodeWindow_cases h <;>
  · obtain ⟨-, rfl⟩ := h
    rfl

/-- What `decode` answers on a list that begins with an opcode byte. -/
theorem decode_cons_of_decodeWindow {opc : Byte} {tail : List Byte} {i : Instr}
    (h : decodeWindow opc (tail.getD 0 0) (tail.getD 1 0) = .ok i) :
    decode (opc :: tail) =
      if tail.length + 1 < i.length then .error .truncated else .ok (i, tail.drop (i.length - 1)) := by
  rw [decode, h]

/-- A list that decodes has an opcode byte, the bytes the instruction owns, and the rest. -/
theorem decode_ok {bytes rest : List Byte} {i : Instr} (h : decode bytes = .ok (i, rest)) :
    ∃ opc tail, bytes = opc :: tail ∧ decodeWindow opc (tail.getD 0 0) (tail.getD 1 0) = .ok i ∧
      i.length ≤ tail.length + 1 ∧ rest = tail.drop (i.length - 1) := by
  cases bytes with
  | nil => cases h
  | cons opc tail =>
    cases hdec : decodeWindow opc (tail.getD 0 0) (tail.getD 1 0) with
    | error e =>
      rw [decode, hdec] at h
      cases h
    | ok j =>
      rw [decode_cons_of_decodeWindow hdec] at h
      split at h
      · cases h
      · rename_i hlen
        cases h
        exact ⟨opc, tail, rfl, hdec, Nat.le_of_not_lt hlen, rfl⟩

/-- The first two bytes of a list, as the decoder takes them, cut to a length that the list has. -/
theorem take_getD_pair {n : Nat} (l : List Byte) (hn : n ≤ l.length) (h2 : n ≤ 2) :
    [l.getD 0 0, l.getD 1 0].take n = l.take n := by
  match n, l with
  | 0, _ => rfl
  | 1, _ :: _ => rfl
  | 2, _ :: _ :: _ => rfl

/-- A byte after the operands is a byte of what follows them. -/
theorem getD_append (l rest : List Byte) (k : Nat) (d : Byte) :
    (l ++ rest).getD k d = l.getD k (rest.getD (k - l.length) d) := by
  by_cases h : k < l.length
  · rw [List.getD_append _ _ _ _ h, List.getD_eq_getElem _ _ h, List.getD_eq_getElem _ _ h]
  · rw [List.getD_append_right _ _ _ _ (Nat.le_of_not_lt h), List.getD_eq_default _ _ (Nat.le_of_not_lt h)]

/-- Decoding an encoding gives the instruction back, with what follows left over. -/
theorem decode_encode_append (i : Instr) (rest : List Byte) : decode (encode i ++ rest) = .ok (i, rest) := by
  have hdec : decodeWindow i.opcode ((i.operands ++ rest).getD 0 0) ((i.operands ++ rest).getD 1 0) = .ok i := by
    rw [getD_append, getD_append]
    exact decodeWindow_opcode_operands i _ _
  rw [encode, List.cons_append, decode_cons_of_decodeWindow hdec, if_neg, ← operands_length, List.drop_left]
  rw [List.length_append, operands_length]
  omega

namespace Machine

/-- Memory that holds an encoding at `a` reads there as the encoding, and beyond it as it did. -/
theorem read_eq_encode_getD {m : Memory} {a : Nat} {i : Instr}
    (h : ∀ k : Nat, k < i.length → m.read (a + k) = (encode i).getD k 0) (k : Nat) :
    m.read (a + k) = (encode i).getD k (m.read (a + k)) := by
  by_cases hk : k < i.length
  · have hk' : k < (encode i).length := by rwa [encode_length]
    rw [List.getD_eq_getElem _ _ hk', h k hk, List.getD_eq_getElem _ _ hk']
  · rw [List.getD_eq_default _ _ (by rw [encode_length]; omega)]

/-- An encoding that lies at `pc` is fetched as its instruction. -/
theorem fetchInstr_of_encode {s : State} {i : Instr} (hpc : FetchInRange s)
    (h : ∀ k : Nat, k < i.length → s.mem.read (s.pc.toNat + k) = (encode i).getD k 0) : fetchInstr s = .ok i := by
  have hopc : s.mem.read s.pc.toNat = i.opcode := read_eq_encode_getD h 0
  have hop1 : s.mem.read (s.pc.toNat + 1) = i.operands.getD 0 (s.mem.read (s.pc.toNat + 1)) := read_eq_encode_getD h 1
  have hop2 : s.mem.read (s.pc.toNat + 2) = i.operands.getD 1 (s.mem.read (s.pc.toNat + 2)) := read_eq_encode_getD h 2
  rw [fetchInstr_inside hpc, hopc, hop1, hop2]
  exact dispatch_of_ok (decodeWindow_opcode_operands i _ _)

/-- Settles O7: the round trip on lists, on windows and in memory, each from the decoder's inverse on a window. -/
theorem decodeOfEncodeIsTheInstruction : Obligations.DecodeOfEncodeIsTheInstruction := by
  unfold Obligations.DecodeOfEncodeIsTheInstruction
  intro i rest pad1 pad2
  exact ⟨decode_encode_append i rest, decodeWindow_opcode_operands i pad1 pad2, fun _ => fetchInstr_of_encode⟩

/-- Settles O8: the opcode is the decoder's, the operands are the bytes it took, and the rest is what it dropped. -/
theorem encodeOfDecodeIsTheBytes : Obligations.EncodeOfDecodeIsTheBytes := by
  unfold Obligations.EncodeOfDecodeIsTheBytes
  intro bytes rest i h
  obtain ⟨opc, tail, rfl, hdec, hlen, rfl⟩ := decode_ok h
  have hle := length_le_three i
  have hoperands : i.operands = tail.take (i.length - 1) :=
    (operands_of_decodeWindow hdec).trans (take_getD_pair tail (by omega) (by omega))
  rw [encode, hoperands, opcode_of_decodeWindow hdec, List.cons_append, List.take_append_drop]

/-- Settles O9: each word is the encoding of its instruction; the byte 0x83 is no opcode. -/
theorem writtenOutWordsDecode : Obligations.WrittenOutWordsDecode := by
  unfold Obligations.WrittenOutWordsDecode
  refine ⟨decode_encode_append .hlt [], decode_encode_append (.ldi 3 255) [], decode_encode_append (.mult 0 1) [],
    decode_encode_append (.call 2) [], ?_⟩
  rw [decode, decodeWindow_unknown _ _ (by decide)]

end Machine

end Sys2Proof

/-! PROOFS. What each meaning does on valid operands, and when it faults instead (10_state.md R12, R13; 43_stack.md R98). -/

namespace Sys2Proof.Machine

section Completion
variable {s : State} {op1 op2 : Byte}

/-- The stack pointer after a write to the register that a byte names: the written byte where that is R7. -/
theorem setReg_sp (s : State) (h : op1.toNat < 8) (v : Byte) :
    (s.setReg ⟨op1.toNat, h⟩ v).sp = if op1 = 7 then v else s.x[7] := by
  have hop : op1 = 7 ↔ op1.toNat = 7 := BitVec.toNat_inj.symm
  by_cases h7 : op1.toNat = 7
  · rw [if_pos (hop.mpr h7)]
    simp [sp_eq, h7]
  · rw [if_neg (mt hop.mp h7)]
    simp [sp_eq, h7]

theorem exec_ldi (h : op1.toNat < 8) :
    exec (.ldi op1 op2) s = .next ((s.setReg ⟨op1.toNat, h⟩ op2).advance 3) :=
  (execLdi_eq op1 op2 s).trans (dif_pos h)

theorem exec_prn (h : op1.toNat < 8) :
    exec (.prn op1) s = .next ((s.emit (s.reg ⟨op1.toNat, h⟩)).advance 2) :=
  (execPrn_eq op1 s).trans (dif_pos h)

theorem aluInstr_valid (op : AluOp) (h1 : op1.toNat < 8) (h2 : op2.toNat < 8) :
    aluInstr op op1 op2 s = .next ((aluApply op ⟨op1.toNat, h1⟩ ⟨op2.toNat, h2⟩ s).advance 3) := by
  rw [aluInstr_eq, dif_pos h1, dif_pos h2]

theorem exec_push (h : op1.toNat < 8) (hsp : s.sp ≠ 0) :
    exec (.push op1) s = .next (State.advance { s.setSp (s.sp - 1) with
      mem := s.mem.write (s.sp - 1).toNat ((s.setSp (s.sp - 1)).reg ⟨op1.toNat, h⟩) } 2) := by
  rw [exec, execPush_eq, dif_pos h, if_neg hsp]

theorem exec_call (h : op1.toNat < 8) (hsp : s.sp ≠ 0) :
    exec (.call op1) s = .next (State.setPc { s.setSp (s.sp - 1) with
      mem := s.mem.write (s.sp - 1).toNat s.returnAddr } (zext9 ((s.setSp (s.sp - 1)).reg ⟨op1.toNat, h⟩))) := by
  rw [exec, execCall_eq, dif_pos h, if_neg hsp]

theorem exec_pop (h : op1.toNat < 8) (h7 : op1 ≠ 7) (hsp : s.sp ≠ 255) :
    exec (.pop op1) s =
      .next (((s.setReg ⟨op1.toNat, h⟩ (s.mem.read s.sp.toNat)).setSp (s.sp + 1)).advance 2) := by
  rw [exec, execPop_eq, dif_pos h]
  simp only [setReg_sp, if_neg h7, ← sp_eq, if_neg hsp]

theorem exec_pop_sp (hv : s.mem.read s.sp.toNat ≠ 255) :
    exec (.pop 7) s = .next ((s.setSp (s.mem.read s.sp.toNat + 1)).advance 2) := by
  rw [exec, execPop_eq, dif_pos (by decide)]
  simp only [setReg_sp, if_true, if_neg hv]
  simp [State.setSp, State.setReg]

theorem exec_ret (hsp : s.sp ≠ 255) :
    exec .ret s = .next ((s.setPc (zext9 (s.mem.read s.sp.toNat))).setSp (s.sp + 1)) := by
  rw [exec, execRet_eq, if_neg hsp]

end Completion

/-! ### The fault of a handler (60_exceptions.md R116, items 4 to 7) -/

/-- A register operand faults where it names no register (10_state.md R13), before any `later` fault. -/
def indexFault (b : Byte) (later : Option Raise) : Option Raise :=
  if 7 < b.toNat then some (.addressFault .reg b.toNat) else later

/-- A push faults with SP at 0 (43_stack.md R98 a). -/
def overflowFault (sp : Byte) : Option Raise := if sp = 0 then some (.addressFault .mem (-1)) else none

/-- A pop faults where the byte it increments is 255 (43_stack.md R98 b). -/
def underflowFault (v : Byte) : Option Raise := if v = 255 then some (.addressFault .mem 256) else none

/-- The fault an instruction run in `s` ends in, if any: its operands in order, then the stack. -/
def handlerFault (s : State) : Instr → Option Raise
  | .hlt => none
  | .ldi op1 _ => indexFault op1 none
  | .prn op1 => indexFault op1 none
  | .mult op1 op2 => indexFault op1 (indexFault op2 none)
  | .add op1 op2 => indexFault op1 (indexFault op2 none)
  | .push op1 => indexFault op1 (overflowFault s.x[7])
  | .pop op1 => indexFault op1 (underflowFault (if op1 = 7 then s.mem.read s.x[7].toNat else s.x[7]))
  | .call op1 => indexFault op1 (overflowFault s.x[7])
  | .ret => underflowFault s.x[7]

theorem indexFault_valid {b : Byte} (h : b.toNat < 8) (later : Option Raise) : indexFault b later = later :=
  if_neg (by omega)

theorem indexFault_invalid {b : Byte} (h : 7 < b.toNat) (later : Option Raise) :
    indexFault b later = some (.addressFault .reg b.toNat) :=
  if_pos h

theorem overflowFault_of_ne {sp : Byte} (h : sp ≠ 0) : overflowFault sp = none := if_neg h
theorem overflowFault_zero : overflowFault 0 = some (.addressFault .mem (-1)) := rfl
theorem underflowFault_top : underflowFault 255 = some (.addressFault .mem 256) := rfl
theorem underflowFault_of_ne {v : Byte} (h : v ≠ 255) : underflowFault v = none := if_neg h

/-- An outcome from `s` follows the fault `f`: it takes that fault, or, with none, reaches a state that meets `P`. -/
def Follows (s : State) (P : State → Prop) (f : Option Raise) (o : Host.Outcome State Fault Refusal) : Prop :=
  match f with
  | some e => o = .next (takeFault s e)
  | none => ∃ t, o = .next t ∧ P t

section Follows
variable {s t : State} {P : State → Prop}

theorem follows_next (h : P t) : Follows s P none (.next t) := ⟨t, rfl, h⟩

theorem follows_indexFault {b : Byte} {later : Option Raise} {k : b.toNat < 8 → Host.Outcome State Fault Refusal}
    (h : ∀ hb, Follows s P later (k hb)) :
    Follows s P (indexFault b later)
      (if hb : b.toNat < 8 then k hb else .next (takeFault s (.addressFault .reg b.toNat))) := by
  by_cases hb : b.toNat < 8
  · rw [indexFault_valid hb, dif_pos hb]
    exact h hb
  · rw [indexFault_invalid (by omega), dif_neg hb]
    rfl

theorem follows_overflowFault {sp : Byte} (h : P t) :
    Follows s P (overflowFault sp)
      (if sp = 0 then .next (takeFault s (.addressFault .mem (-1))) else .next t) := by
  by_cases hsp : sp = 0
  · rw [overflowFault, if_pos hsp, if_pos hsp]
    rfl
  · rw [overflowFault, if_neg hsp, if_neg hsp]
    exact follows_next h

theorem follows_underflowFault {v : Byte} (h : P t) :
    Follows s P (underflowFault v)
      (if v = 255 then .next (takeFault s (.addressFault .mem 256)) else .next t) := by
  by_cases hv : v = 255
  · rw [underflowFault, if_pos hv, if_pos hv]
    rfl
  · rw [underflowFault, if_neg hv, if_neg hv]
    exact follows_next h

end Follows

/-- The fault record is kept, and the latch but by HLT. -/
def KeepsReport (s : State) (i : Instr) (t : State) : Prop := t.fault = s.fault ∧ (i ≠ .hlt → t.halted = s.halted)

theorem aluInstr_follows (op : AluOp) (i : Instr) (op1 op2 : Byte) (s : State) :
    Follows s (KeepsReport s i) (indexFault op1 (indexFault op2 none)) (aluInstr op op1 op2 s) := by
  rw [aluInstr_eq]
  exact follows_indexFault fun _ => follows_indexFault fun _ => follows_next ⟨rfl, fun _ => rfl⟩

/-- An instruction takes the fault that `handlerFault` names, or completes where it names none. -/
theorem exec_follows (i : Instr) (s : State) : Follows s (KeepsReport s i) (handlerFault s i) (exec i s) := by
  cases i with
  | hlt => exact follows_next ⟨rfl, fun h => absurd rfl h⟩
  | ldi op1 op2 =>
    rw [exec, execLdi_eq]
    exact follows_indexFault fun _ => follows_next ⟨rfl, fun _ => rfl⟩
  | prn op1 =>
    rw [exec, execPrn_eq]
    exact follows_indexFault fun _ => follows_next ⟨rfl, fun _ => rfl⟩
  | mult op1 op2 => exact aluInstr_follows .mult _ op1 op2 s
  | add op1 op2 => exact aluInstr_follows .add _ op1 op2 s
  | push op1 =>
    rw [exec, execPush_eq]
    exact follows_indexFault fun _ => follows_overflowFault ⟨rfl, fun _ => rfl⟩
  | pop op1 =>
    rw [exec, execPop_eq]
    refine follows_indexFault fun h => ?_
    rw [← setReg_sp s h]
    exact follows_underflowFault ⟨rfl, fun _ => rfl⟩
  | call op1 =>
    rw [exec, execCall_eq]
    exact follows_indexFault fun _ => follows_overflowFault ⟨rfl, fun _ => rfl⟩
  | ret =>
    rw [exec, execRet_eq]
    exact follows_underflowFault ⟨rfl, fun _ => rfl⟩

/-- The instruction takes the fault of its handler. -/
theorem exec_of_handlerFault {i : Instr} {s : State} {e : Raise} (h : handlerFault s i = some e) :
    exec i s = .next (takeFault s e) := by
  have hexec := exec_follows i s
  rwa [h] at hexec

/-- With no fault of its handler, the instruction completes. -/
theorem exec_of_handlerFault_none {i : Instr} {s : State} (h : handlerFault s i = none) :
    ∃ t, exec i s = .next t ∧ KeepsReport s i t := by
  have hexec := exec_follows i s
  rwa [h] at hexec

/-- With no fault of its handler, the instruction's next state keeps record and latch. -/
theorem keepsReport_of_handlerFault_none {i : Instr} {s t : State} (h : handlerFault s i = none)
    (hexec : exec i s = .next t) : KeepsReport s i t := by
  obtain ⟨u, hu, hkeep⟩ := exec_of_handlerFault_none h
  rw [hexec] at hu
  cases hu
  exact hkeep

/-! ### What an instruction may change (10_state.md R12's table, 20_memory.md R34) -/

/-- The registers an instruction may write. -/
def MayWrite (i : Instr) (r : RegIndex) : Prop :=
  match i with
  | .hlt => False
  | .ldi op1 _ => r.val = op1.toNat
  | .prn _ => False
  | .mult op1 _ => r.val = op1.toNat
  | .add op1 _ => r.val = op1.toNat
  | .push _ => r = 7
  | .pop op1 => r.val = op1.toNat ∨ r = 7
  | .call _ => r = 7
  | .ret => r = 7

/-- With the window in memory an advance is the integer sum (10_state.md R16). -/
theorem advance_pc_of_fetchInRange {s : State} {n : Nat} (hpc : FetchInRange s) (hn : n ≤ 3) :
    (s.advance n).pc.toNat = s.pc.toNat + n :=
  advance_pc_toNat s n (by omega)

theorem advance_pc_le {s : State} {n : Nat} (hpc : FetchInRange s) (hn : n ≤ 3) : (s.advance n).pc.toNat ≤ 256 := by
  rw [advance_pc_of_fetchInRange hpc hn]
  omega

theorem getElem_set_of_ne {x : RegFile} {i r : RegIndex} {v : Byte} (h : r ≠ i) : (x.set i v)[r] = x[r] :=
  Vector.getElem_set_ne _ _ fun hi => h (Fin.ext hi.symm)

namespace Effect
variable {s t : State} {i : Instr}

/-- A register that the instruction may not write is kept. -/
theorem x_of_not_mayWrite (h : Effect s i t) {r : RegIndex} (hr : ¬ MayWrite i r) : t.x[r] = s.x[r] := by
  cases h with
  | hlt | prn | fault => rfl
  | ldi | mult | add => exact getElem_set_of_ne fun hri => hr (congrArg Fin.val hri)
  | push | call | ret => exact getElem_set_of_ne hr
  | pop =>
    obtain ⟨hop, h7⟩ := not_or.mp hr
    exact (getElem_set_of_ne h7).trans (getElem_set_of_ne fun hri => hop (congrArg Fin.val hri))

/-- Memory is kept, or PUSH or CALL wrote the cell below SP. -/
theorem mem_cases (h : Effect s i t) :
    t.mem = s.mem ∨
    (∃ op1, i = .push op1 ∨ i = .call op1) ∧ s.sp ≠ 0 ∧ ∃ v, t.mem = s.mem.write (s.sp - 1).toNat v := by
  cases h with
  | hlt | ldi | prn | mult | add | pop | ret | fault => exact .inl rfl
  | push op1 _ hs => exact .inr ⟨⟨op1, .inl rfl⟩, hs, _, rfl⟩
  | call op1 _ hs => exact .inr ⟨⟨op1, .inr rfl⟩, hs, _, rfl⟩

/-- Memory stays in canonical form. -/
theorem mem_wf (h : Effect s i t) (hwf : s.mem.wf = true) : t.mem.wf = true := by
  obtain hmem | ⟨-, -, v, hmem⟩ := h.mem_cases <;> rw [hmem]
  · exact hwf
  · exact Memory.wf_write hwf (BitVec.isLt _) v

/-- The output is kept, or PRN appended the value of its register. -/
theorem out_cases (h : Effect s i t) :
    t.out = s.out ∨
    ∃ (op1 : Byte) (h : op1.toNat < 8), i = .prn op1 ∧ t.out = s.out ++ [s.x[op1.toNat]] := by
  cases h with
  | hlt | ldi | mult | add | push | pop | call | ret | fault => exact .inl rfl
  | prn op1 h => exact .inr ⟨op1, h, rfl, rfl⟩

/-- The instruction completed with the record kept, and the latch but by HLT, or it took a fault. -/
theorem keepsReport_or_fault (h : Effect s i t) :
    KeepsReport s i t ∨ ∃ e, HandlerRaise e ∧ t = takeFault s e := by
  cases h with
  | hlt => exact .inl ⟨rfl, fun h => absurd rfl h⟩
  | ldi | prn | mult | add | push | pop | call | ret => exact .inl ⟨rfl, fun _ => rfl⟩
  | fault _ e he => exact .inr ⟨e, he, rfl⟩

/-- From a window in memory no instruction takes `pc` above 256 (10_state.md R16, R23). -/
theorem pc_le (h : Effect s i t) (hpc : FetchInRange s) : t.pc.toNat ≤ 256 := by
  cases h with
  | hlt | fault => exact Nat.le_trans hpc (by decide)
  | ldi | mult | add | prn | push | pop =>
    exact advance_pc_le hpc (by decide)
  | call | ret => exact Nat.le_trans (Nat.le_of_eq (zext9_toNat _)) (Nat.le_of_lt (BitVec.isLt _))

end Effect

end Sys2Proof.Machine

/-! PROOFS. How a step ends, and the invariant it keeps (40_fetch_dispatch.md R75, R78; 10_state.md R23). -/

namespace Sys2Proof.Machine

/-- The raises of a handler write a record as the rules have it (60_exceptions.md R111). -/
theorem faultRecord_consistent_of_handlerRaise {p : PcWord} {e : Raise} (hp : p.toNat ≤ 256) (he : HandlerRaise e) :
    (faultRecord p e).Consistent := by
  cases he with
  | index b hb => exact ⟨rfl, hp, .inr ⟨rfl, Int.ofNat_le.mpr hb, Int.ofNat_le.mpr (Nat.le_of_lt_succ b.isLt)⟩⟩
  | overflow => exact ⟨rfl, hp, .inl ⟨rfl, .inl rfl⟩⟩
  | underflow => exact ⟨rfl, hp, .inl ⟨rfl, .inr (.inl rfl)⟩⟩

/-- The raises of a fetch write a record as the rules have it (60_exceptions.md R111, R112). -/
theorem faultRecord_consistent_of_fetchInstr {s : State} {e : Raise} (hp : s.pc.toNat ≤ 256)
    (h : fetchInstr s = .error e) : (faultRecord s.pc e).Consistent := by
  obtain ⟨hpc, rfl⟩ | ⟨-, rfl⟩ | ⟨hpc, hopc, rfl⟩ := fetchInstr_error h
  · exact ⟨rfl, hp, .inl ⟨rfl, .inr (by simp only [faultRecord]; omega)⟩⟩
  · exact ⟨rfl, hp, .inl ⟨rfl, .inr (.inl rfl)⟩⟩
  · exact ⟨hpc, rfl, rfl, hopc⟩

/-- A step ran the fetched instruction without a fault, or took one that the rules list. -/
theorem step_completes_or_faults {s t : State} (h : step s = .next t) :
    (∃ i, fetchInstr s = .ok i ∧ Effect s i t ∧ KeepsReport s i t) ∨
    ∃ e, (s.pc.toNat ≤ 256 → (faultRecord s.pc e).Consistent) ∧ t = takeFault s e := by
  obtain ⟨-, ⟨i, hfetch, heff⟩ | ⟨e, hfetch, rfl⟩⟩ := step_effect h
  · obtain hkeep | ⟨e, he, rfl⟩ := heff.keepsReport_or_fault
    · exact .inl ⟨i, hfetch, heff, hkeep⟩
    · exact .inr ⟨e, fun hp => faultRecord_consistent_of_handlerRaise hp he, rfl⟩
  · exact .inr ⟨e, fun hp => faultRecord_consistent_of_fetchInstr hp hfetch, rfl⟩

theorem halted_eq_false_of_step {s t : State} (h : step s = .next t) : s.halted = false := (step_effect h).1

/-- A step that ends with a fault on record took that fault: a running state has none. -/
theorem eq_takeFault_of_step {s t : State} (hs : Inv s) (h : step s = .next t) (hcause : t.fault.cause ≠ .none) :
    ∃ e, t = takeFault s e := by
  obtain ⟨i, -, -, hfault, -⟩ | ⟨e, -, ht⟩ := step_completes_or_faults h
  · rw [hfault] at hcause
    exact absurd (hs.runningNoFault (halted_eq_false_of_step h)) hcause
  · exact ⟨e, ht⟩

/-- A step that ends halted ran an HLT or took a fault. -/
theorem halt_or_takeFault_of_step {s t : State} (h : step s = .next t) (hhalt : t.halted = true) :
    fetchInstr s = .ok .hlt ∧ t = s.halt ∨ ∃ e, t = takeFault s e := by
  obtain ⟨i, hfetch, heff, -, hkeep⟩ | ⟨e, -, ht⟩ := step_completes_or_faults h
  · by_cases hi : i = .hlt
    · subst hi
      cases heff with
      | hlt => exact .inl ⟨hfetch, rfl⟩
      | fault _ e _ => exact .inr ⟨e, rfl⟩
    · rw [hkeep hi, halted_eq_false_of_step h] at hhalt
      cases hhalt
  · exact .inr ⟨e, ht⟩

/-! ### The invariant -/

/-- Taking a fault that the rules list keeps the invariant. -/
theorem Inv.takeFault {s : State} {e : Raise} (hs : Inv s) (he : (faultRecord s.pc e).Consistent) :
    Inv (takeFault s e) where
  memWf := hs.memWf
  pcRange := hs.pcRange
  runningNoFault := fun h => by cases h
  faultHalts := fun _ => ⟨rfl, (faultRecord_pc s.pc e).symm⟩
  faultConsistent := he

/-- A step without a fault keeps the invariant, for it leaves the record of a running state, which holds no fault. -/
theorem Inv.of_fault_eq {s t : State} (hs : Inv s) (hrun : s.halted = false) (hmem : t.mem.wf = true)
    (hpc : t.pc.toNat ≤ 256) (hfault : t.fault = s.fault) : Inv t := by
  have hnone : t.fault.cause = .none := by rw [hfault, hs.runningNoFault hrun]
  exact ⟨hmem, hpc, fun _ => hnone, fun h => absurd hnone h, hfault ▸ hs.faultConsistent⟩

/-- Settles O36: a fault keeps all but latch and record; an instruction keeps the record and the ranges of memory and pc. -/
theorem stepKeepsInvariant : Obligations.StepKeepsInvariant := by
  unfold Obligations.StepKeepsInvariant
  intro s t hs h
  obtain ⟨i, hfetch, heff, hfault, -⟩ | ⟨e, he, rfl⟩ := step_completes_or_faults h
  · exact hs.of_fault_eq (halted_eq_false_of_step h) (heff.mem_wf hs.memWf) (heff.pc_le (fetchInstr_ok hfetch).1) hfault
  · exact hs.takeFault (he hs.pcRange)

/-- Settles O37: the reset memory is canonical, pc is 0, and the record is the reset one. -/
theorem invariantAfterReset : Obligations.InvariantAfterReset := by
  unfold Obligations.InvariantAfterReset
  exact ⟨reset_mem_wf, by decide, fun _ => rfl, fun h => absurd rfl h, rfl⟩

/-- A host write touches memory alone and keeps the invariant. -/
theorem Inv.hostWrite {s : State} (hs : Inv s) (addr data : Byte) : Inv (hostWrite addr data s) :=
  ⟨hostWrite_wf hs.memWf addr data, hs.pcRange, hs.runningNoFault, hs.faultHalts, hs.faultConsistent⟩

/-- The host's load keeps the invariant. -/
theorem Inv.foldl_hostWrite (writes : List (Byte × Byte)) :
    ∀ {s : State}, Inv s → Inv (writes.foldl (fun s w => Machine.hostWrite w.1 w.2 s) s) := by
  induction writes with
  | nil => exact id
  | cons w ws ih => exact fun hs => ih (hs.hostWrite w.1 w.2)

/-- Settles O38, by induction on the run: reset meets the invariant, and loads and steps keep it. -/
theorem reachableStatesMeetInvariant : Obligations.ReachableStatesMeetInvariant := by
  unfold Obligations.ReachableStatesMeetInvariant
  intro s hs
  induction hs with
  | reset => exact invariantAfterReset
  | load writes => exact Inv.foldl_hostWrite writes invariantAfterReset
  | step _ hstep ih => exact stepKeepsInvariant _ _ ih hstep

/-! ### Faults and halts -/

/-- Settles O30: the step took the fault, and that changes nothing but latch and record. -/
theorem faultChangesOnlyLatchAndRecord : Obligations.FaultChangesOnlyLatchAndRecord := by
  unfold Obligations.FaultChangesOnlyLatchAndRecord
  intro s t hs h hcause
  obtain ⟨e, rfl⟩ := eq_takeFault_of_step hs h hcause
  exact ⟨rfl, rfl, rfl, rfl, rfl, faultRecord_pc s.pc e⟩

/-- Settles O31: the step ran the HLT at pc, or took a fault. -/
theorem runEndsByHltOrFault : Obligations.RunEndsByHltOrFault := by
  unfold Obligations.RunEndsByHltOrFault
  intro s t hs h hhalt
  obtain ⟨hfetch, rfl⟩ | ⟨e, rfl⟩ := halt_or_takeFault_of_step h hhalt
  · have hopc : Instr.hlt.opcode = s.mem.read s.pc.toNat := opcode_of_decodeWindow (fetchInstr_ok hfetch).2
    exact .inl ⟨⟨rfl, hs.runningNoFault (halted_eq_false_of_step h)⟩, hfetch, rfl, hopc.symm⟩
  · exact .inr ⟨takeFault_faultedEnd s e, (faultRecord_pc s.pc e).symm, faultRecord_pc s.pc e⟩

/-- Settles O14: a halted state stops with `coreHalted`, and a running state has a next state. -/
theorem haltedCoreIsStuck : Obligations.HaltedCoreIsStuck := by
  unfold Obligations.HaltedCoreIsStuck
  intro s
  cases hhalt : s.halted with
  | true =>
    rw [step_of_halted hhalt]
    exact ⟨⟨fun _ => rfl, fun _ => rfl⟩, nofun⟩
  | false =>
    obtain ⟨t, ht⟩ := step_next_of_running hhalt
    rw [ht]
    exact ⟨⟨nofun, nofun⟩, nofun⟩

/-- Settles O16: the fetch raises the fault of the first address outside memory. -/
theorem fetchWindowFaults : Obligations.FetchWindowFaults := by
  unfold Obligations.FetchWindowFaults
  intro s hrun
  constructor
  · intro hpc
    rw [step_of_running hrun, fetchInstr_254 hpc]
    rfl
  · intro hpc
    rw [step_of_running hrun, fetchInstr_outside hpc]
    rfl

/-- Settles O19: HLT's meaning is its one effect; a step that halts cleanly ran it; at 254 and 255 the window read faults. -/
theorem hltHalts : Obligations.HltHalts := by
  unfold Obligations.HltHalts
  refine ⟨rfl, fun s _ => ⟨rfl, step_ne_next_of_halted rfl⟩, ?_, ?_⟩
  · rintro s t - h ⟨hhalt, hcause⟩
    obtain ⟨hfetch, -⟩ | ⟨e, rfl⟩ := halt_or_takeFault_of_step h hhalt
    · exact hfetch
    · exact absurd hcause (faultRecord_cause_ne_none s.pc e)
  · rintro s hrun (hpc | hpc)
    · exact ⟨_, (fetchWindowFaults s hrun).1 hpc, takeFault_faultedEnd s (.addressFault .mem 256), rfl⟩
    · exact ⟨_, (fetchWindowFaults s hrun).2 (by omega), takeFault_faultedEnd s (.addressFault .mem (s.pc.toNat + 1)), rfl⟩

/-- Settles O18: a fault keeps pc; each completed instruction has its own advance or target. -/
theorem pcAfterEachInstruction : Obligations.PcAfterEachInstruction := by
  unfold Obligations.PcAfterEachInstruction
  intro s t hs h
  constructor
  · intro hcause
    obtain ⟨e, rfl⟩ := eq_takeFault_of_step hs h hcause
    rfl
  · intro i hfetch hcause
    have hpc : FetchInRange s := (fetchInstr_ok hfetch).1
    obtain ⟨-, ⟨j, hj, heff⟩ | ⟨e, he, -⟩⟩ := step_effect h
    · obtain rfl : i = j := Except.ok.inj (hfetch.symm.trans hj)
      cases heff with
      | hlt => rfl
      | ldi | mult | add | prn | push | pop => exact advance_pc_of_fetchInRange hpc (by decide)
      | call _ hop => exact ⟨hop, zext9_toNat _⟩
      | ret => exact zext9_toNat _
      | fault _ e => exact absurd hcause (faultRecord_cause_ne_none s.pc e)
    · rw [hfetch] at he
      cases he

/-! ### The priority list (60_exceptions.md R116) -/

/-- Items 1 to 3: the list names the fault of the fetch. -/
theorem firstFault_of_fetchInstr_error {s : State} {e : Raise} (h : fetchInstr s = .error e) : firstFault s = some e := by
  unfold firstFault
  obtain ⟨hpc, rfl⟩ | ⟨hpc, rfl⟩ | ⟨hpc, hopc, rfl⟩ := fetchInstr_error h
  · exact if_pos (by omega)
  · exact (if_neg (by omega)).trans ((if_pos (by omega)).trans (by rw [hpc]; rfl))
  · exact (if_neg (by omega)).trans ((if_neg (by omega)).trans (if_pos hopc))

/-- Items 4 to 7: with an instruction fetched, the list names the fault of its handler. Each of the nine opcodes decides the
list's conditions on the opcode, and what is left of the list is the handler's fault. -/
theorem firstFault_of_fetchInstr_ok {s : State} {i : Instr} (h : fetchInstr s = .ok i) :
    firstFault s = handlerFault s i := by
  obtain ⟨hpc, hdec⟩ := fetchInstr_ok h
  have h1 : ¬ s.pc.toNat + 1 > 255 := by omega
  have h2 : ¬ s.pc.toNat + 2 > 255 := by omega
  obtain ⟨hopc, rfl⟩ | ⟨hopc, rfl⟩ | ⟨hopc, rfl⟩ | ⟨hopc, rfl⟩ | ⟨hopc, rfl⟩ | ⟨hopc, rfl⟩ | ⟨hopc, rfl⟩ | ⟨hopc, rfl⟩ |
    ⟨hopc, rfl⟩ := decodeWindow_cases hdec <;>
  simp [firstFault, h1, h2, hopc, definedOpcodes, opcodeTable, registerOpcodes, handlerFault, indexFault,
    overflowFault, underflowFault]
  -- POP alone is left: the list has one item for R7 and one for the other registers.
  by_cases h7 : s.mem.read (s.pc.toNat + 1) = 7#8 <;> simp [h7]

/-- Settles O29: the list names the fault of the fetch, or else that of the fetched instruction, which the step takes. -/
theorem faultsFollowThePriorityList : Obligations.FaultsFollowThePriorityList := by
  unfold Obligations.FaultsFollowThePriorityList
  intro s hrun
  rw [step_of_running hrun]
  cases hfetch : fetchInstr s with
  | error e =>
    rw [firstFault_of_fetchInstr_error hfetch]
    exact ⟨fun e' he => by cases he; rfl, nofun⟩
  | ok i =>
    rw [firstFault_of_fetchInstr_ok hfetch]
    refine ⟨fun e he => exec_of_handlerFault he, fun hnone => ?_⟩
    obtain ⟨t, ht, hfault, -⟩ := exec_of_handlerFault_none hnone
    exact ⟨t, ht, hfault⟩

end Sys2Proof.Machine

/-! PROOFS. Memory, and what the host does and sees (20_memory.md R31 to R33; 70_reset_and_hazards.md R130 to R135). -/

namespace Sys2Proof.Machine

/-! ### Memory -/

/-- Settles O11: the checked accesses are `read` and `write` inside memory, and raise outside. -/
theorem checkedReadsAndWrites : Obligations.CheckedReadsAndWrites := by
  unfold Obligations.CheckedReadsAndWrites
  intro m hwf a v
  constructor
  · rintro ⟨h0, h1⟩
    refine ⟨memRead_inside m h0 h1, m.write a.toNat v, memWrite_inside m v h0 h1, ?_, ?_, fun c hc => ?_⟩
    · exact Memory.wf_write hwf (show a.toNat < 256 by omega) v
    · rw [memRead_inside _ h0 h1, Memory.read_write_same hwf]
    · by_cases hin : 0 ≤ c ∧ c ≤ 255
      · rw [memRead_inside _ hin.1 hin.2, memRead_inside _ hin.1 hin.2, Memory.read_write_other v (by omega)]
      · rw [memRead_outside _ (by omega), memRead_outside _ (by omega)]
  · intro hout
    exact ⟨memRead_outside m (by omega), memWrite_outside m v (by omega)⟩

/-- What the canonical form says of its first entry and of the rest. -/
theorem Memory.wfFrom_cons {lo a : Nat} {v : Byte} {rest : Memory} (h : Memory.wfFrom lo ((a, v) :: rest) = true) :
    lo ≤ a ∧ a < 256 ∧ v ≠ Config.memReset ∧ rest.wfFrom (a + 1) = true := by
  simpa only [Memory.wfFrom, Bool.and_eq_true, decide_eq_true_eq, and_assoc] using h

theorem Memory.read_cons_self (a : Nat) (v : Byte) (rest : Memory) : Memory.read ((a, v) :: rest) a = v := if_pos rfl

theorem Memory.read_cons_of_ne {a b : Nat} (v : Byte) (rest : Memory) (h : a ≠ b) :
    Memory.read ((b, v) :: rest) a = rest.read a := if_neg h

/-- A memory whose first entry stands at `a` does not read like one that lists nothing at or below `a`. -/
theorem Memory.not_read_alike_of_lt {lo lo' a : Nat} {v : Byte} {rest m : Memory}
    (h : Memory.wfFrom lo ((a, v) :: rest) = true) (hm : m.wfFrom lo' = true) (ha : a < lo')
    (halike : ∀ c < 256, Memory.read ((a, v) :: rest) c = m.read c) : False := by
  obtain ⟨-, h256, hv, -⟩ := Memory.wfFrom_cons h
  have hread := halike a h256
  rw [Memory.read_cons_self, Memory.read_below hm ha] at hread
  exact hv hread

/-- The canonical form is unique: two canonical memories that read alike list the same entries. -/
theorem Memory.eq_of_read_alike : ∀ {lo lo' : Nat} {m m' : Memory}, m.wfFrom lo = true → m'.wfFrom lo' = true →
    (∀ c < 256, m.read c = m'.read c) → m = m'
  | _, _, [], [], _, _, _ => rfl
  | _, _, [], (_, _) :: _, _, hm', halike =>
    (Memory.not_read_alike_of_lt hm' (m := []) (lo' := 256) rfl (Memory.wfFrom_cons hm').2.1
      fun c hc => (halike c hc).symm).elim
  | _, _, (_, _) :: _, [], hm, _, halike =>
    (Memory.not_read_alike_of_lt hm (m := []) (lo' := 256) rfl (Memory.wfFrom_cons hm).2.1 halike).elim
  | _, _, (a, v) :: rest, (a', v') :: rest', hm, hm', halike => by
    obtain ⟨-, h256, -, hrest⟩ := Memory.wfFrom_cons hm
    obtain ⟨-, -, -, hrest'⟩ := Memory.wfFrom_cons hm'
    obtain hlt | rfl | hgt := Nat.lt_trichotomy a a'
    · exact (Memory.not_read_alike_of_lt hm (Memory.wfFrom_mono_head hm') hlt halike).elim
    · have hv : v = v' := by simpa only [Memory.read_cons_self] using halike a h256
      have htail : rest = rest' := by
        refine Memory.eq_of_read_alike hrest hrest' fun c hc => ?_
        by_cases hca : c = a
        · rw [hca, Memory.read_below hrest (Nat.lt_succ_self a), Memory.read_below hrest' (Nat.lt_succ_self a)]
        · simpa only [Memory.read_cons_of_ne _ _ hca] using halike c hc
      rw [hv, htail]
    · exact (Memory.not_read_alike_of_lt hm' (Memory.wfFrom_mono_head hm) hgt fun c hc => (halike c hc).symm).elim

/-- Settles O12: the canonical form is unique. -/
theorem canonicalMemoriesReadingAlikeAreEqual : Obligations.CanonicalMemoriesReadingAlikeAreEqual := by
  unfold Obligations.CanonicalMemoriesReadingAlikeAreEqual
  exact fun m m' hm hm' => Memory.eq_of_read_alike hm hm'

/-! ### Launch -/

/-- The Loader on an image that fits: image bytes from `a` on, the other cells as before. -/
theorem loadBytes_of_fits (image : List Byte) : ∀ {a : Nat} {m : Memory}, a + image.length ≤ 256 → m.wf = true →
    ∃ m', loadBytes a image m = .ok m' ∧
      ∀ c, m'.read c = if a ≤ c then image.getD (c - a) (m.read c) else m.read c := by
  induction image with
  | nil => exact fun {a m} _ _ => ⟨m, rfl, fun c => by simp⟩
  | cons b rest ih =>
    intro a m hlen hwf
    rw [List.length_cons] at hlen
    obtain ⟨m', hload, hread⟩ := ih (a := a + 1) (by omega) (Memory.wf_write hwf (show a < 256 by omega) b)
    refine ⟨m', by rw [loadBytes_inside (by omega), hload], fun c => ?_⟩
    rw [hread c]
    obtain hlt | rfl | hgt := Nat.lt_trichotomy c a
    · rw [if_neg (by omega), if_neg (by omega), Memory.read_write_other b (by omega)]
    · rw [if_neg (by omega), if_pos (Nat.le_refl c), Nat.sub_self, Memory.read_write_same hwf]
      rfl
    · rw [if_pos (Nat.succ_le_of_lt hgt), if_pos (Nat.le_of_lt hgt), Memory.read_write_other b (by omega),
        show c - a = c - (a + 1) + 1 by omega]
      rfl

/-- The Loader on an image that does not fit raises at 256, the first address outside. -/
theorem loadBytes_of_long (image : List Byte) : ∀ {a : Nat} {m : Memory}, a ≤ 256 → 256 < a + image.length →
    loadBytes a image m = .error (.addressFault .mem 256) := by
  induction image with
  | nil => exact fun ha hlen => absurd hlen (Nat.not_lt.mpr ha)
  | cons b rest ih =>
    intro a m ha hlen
    rw [List.length_cons] at hlen
    obtain rfl | hlt := Nat.eq_or_lt_of_le ha
    · exact loadBytes_outside (by decide) b rest m
    · rw [loadBytes_inside (by omega), ih (by omega) (by omega)]

/-- Settles O2: the Loader puts the image over the zeros of the reset memory. -/
theorem launchStateIsImageOverReset : Obligations.LaunchStateIsImageOverReset := by
  unfold Obligations.LaunchStateIsImageOverReset
  intro image hlen
  obtain ⟨m, hload, hread⟩ := loadBytes_of_fits image (a := Config.loadBase) (by rwa [Nat.zero_add]) reset_mem_wf
  refine ⟨{ State.reset with mem := m }, by rw [launch, hload], fun a _ => ?_, rfl⟩
  rw [hread a, if_pos (Nat.zero_le a)]
  rfl

/-- Settles O3: the Loader reaches address 256 and raises. -/
theorem longImageIsRefused : Obligations.LongImageIsRefused := by
  unfold Obligations.LongImageIsRefused
  intro image hlen
  rw [launch, loadBytes_of_long image (a := Config.loadBase) (by decide) (by rwa [Nat.zero_add])]

/-! ### Reset, host inputs and ports -/

/-- Settles O1: the reset state has these fields; an empty memory reads as zeros. -/
theorem resetStateValues : Obligations.ResetStateValues := by
  unfold Obligations.ResetStateValues
  exact ⟨fun a ha => memRead_inside _ (by omega) (by omega), rfl, rfl, by decide, rfl, rfl, rfl⟩

/-- Settles O5: `react` by input and phase; a load is one write to memory. -/
theorem hostInputsByPhase : Obligations.HostInputsByPhase := by
  unfold Obligations.HostInputsByPhase
  rintro ⟨phase, core⟩
  refine ⟨rfl, ?_, ?_, fun t ht => ?_⟩
  · rintro rfl addr data
    rfl
  · rintro rfl hwf addr data
    exact ⟨hostWrite addr data core, rfl, Memory.read_write_same hwf _ _,
      fun a ha => Memory.read_write_other data ha core.mem, rfl⟩
  · simp only [System.react, ht]

/-- The index a consistent record reports is between -1 and 257 (60_exceptions.md R111). -/
theorem FaultRecord.Consistent.addr_range {f : FaultRecord} (h : f.Consistent) : -1 ≤ f.addr ∧ f.addr ≤ 257 := by
  unfold FaultRecord.Consistent at h
  split at h
  · rw [h]
    decide
  · obtain ⟨-, -, ⟨-, haddr⟩ | ⟨-, haddr⟩⟩ := h <;> omega
  · obtain ⟨-, -, haddr, -⟩ := h
    omega
  · exact h.elim

/-- No rule writes the unsupported ALU operation (60_exceptions.md R113). -/
theorem FaultRecord.Consistent.cause_ne_unsupportedAluOp {f : FaultRecord} (h : f.Consistent) :
    f.cause ≠ .unsupportedAluOp := by
  intro hcause
  simp [FaultRecord.Consistent, hcause] at h

/-- Settles O6: the index fits ten bits, and each cause has its own code. -/
theorem portsCarryTheFaultRecord : Obligations.PortsCarryTheFaultRecord := by
  unfold Obligations.PortsCarryTheFaultRecord
  intro s hs
  obtain ⟨hlo, hhi⟩ := hs.faultConsistent.addr_range
  have hcause := hs.faultConsistent.cause_ne_unsupportedAluOp
  have haddr : s.ports.faultAddr.toInt = s.fault.addr :=
    BitVec.toInt_ofInt_eq_self (by decide) (by omega) (by omega)
  refine ⟨haddr, rfl, rfl, rfl, rfl, ?_⟩
  simp only [State.ports]
  cases hc : s.fault.cause with
  | none | addressFault | unknownOpcode => decide
  | unsupportedAluOp => exact absurd hc hcause

end Sys2Proof.Machine

/-! PROOFS. Each instruction: what it does and that it completes, its faults and its frame (41 to 44 of the spec). -/

namespace Sys2Proof.Machine

/-- An address fault of the handler, in the words of the statements (40_fetch_dispatch.md R75). -/
theorem exec_afterAddressFault {i : Instr} {s : State} {space : Space} {a : Int}
    (h : handlerFault s i = some (.addressFault space a)) : exec i s = .next (afterAddressFault s space a) :=
  exec_of_handlerFault h

/-! ### LDI, PRN, MULT, ADD -/

/-- Settles O20: LDI writes its immediate, which a PRN of the same register then reads. -/
theorem ldiLoadsItsImmediate : Obligations.LdiLoadsItsImmediate := by
  unfold Obligations.LdiLoadsItsImmediate
  intro op1 op2 s hpc
  refine ⟨rfl, fun h => ?_, fun h => exec_afterAddressFault (indexFault_invalid h none), fun h => ?_⟩
  · exact ⟨_, exec_ldi h, rfl, advance_pc_of_fetchInRange (s := s.setReg ⟨op1.toNat, h⟩ op2) hpc (by decide),
      rfl, rfl, rfl, rfl⟩
  · refine ⟨_, _, exec_ldi h, exec_prn h, ?_⟩
    exact congrArg (s.out ++ [·]) (reg_setReg_self s ⟨op1.toNat, h⟩ op2)

/-- Settles O21: PRN appends its register's value, which is the pulse of the step. -/
theorem prnEmitsItsRegister : Obligations.PrnEmitsItsRegister := by
  unfold Obligations.PrnEmitsItsRegister
  intro op1 s hpc
  refine ⟨fun h => ?_, fun h => exec_afterAddressFault (indexFault_invalid h none)⟩
  refine ⟨_, exec_prn h, rfl, ?_, advance_pc_of_fetchInRange (s := s.emit _) hpc (by decide), rfl, rfl, rfl, rfl⟩
  exact List.getElem?_concat_length

/-- What MULT and ADD do on valid operands: the ALU's result into the first register, three bytes on (42_alu.md R90). -/
theorem aluInstr_effect (op : AluOp) {op1 op2 : Byte} {s : State} (h1 : op1.toNat < 8) (h2 : op2.toNat < 8)
    (hpc : FetchInRange s) :
    ∃ (t : State) (v : Byte), aluInstr op op1 op2 s = .next t ∧ t.x = s.x.set op1.toNat v ∧
      v.toNat = aluExact op s.x[op1.toNat] s.x[op2.toNat] % 256 ∧ t.pc.toNat = s.pc.toNat + 3 ∧
      t.mem = s.mem ∧ t.halted = s.halted ∧ t.fault = s.fault ∧ t.out = s.out :=
  ⟨_, _, aluInstr_valid op h1 h2, rfl, aluResult_toNat op _ _,
    advance_pc_of_fetchInRange (s := aluApply op ⟨_, h1⟩ ⟨_, h2⟩ s) hpc (by decide), rfl, rfl, rfl, rfl⟩

/-- Settles O22: the ALU's effect with each operation. -/
theorem multAndAddModulo256 : Obligations.MultAndAddModulo256 := by
  unfold Obligations.MultAndAddModulo256
  exact fun op1 op2 s h1 h2 hpc => ⟨aluInstr_effect .mult h1 h2 hpc, aluInstr_effect .add h1 h2 hpc⟩

/-! ### The stack -/

/-- Above 0 the stack pointer goes down by exactly one (43_stack.md R98 a). -/
theorem sub_one_toNat {v : Byte} (h : v ≠ 0) : (v - 1).toNat + 1 = v.toNat := by bv_omega

/-- Below 255 the stack pointer goes up by exactly one (43_stack.md R98 b). -/
theorem add_one_toNat {v : Byte} (h : v ≠ 255) : (v + 1).toNat = v.toNat + 1 := by bv_omega

/-- R7 holds what was set there. -/
theorem getElem_set_sp (x : RegFile) (v : Byte) : (x.set 7 v)[7] = v := Vector.getElem_set_self _

/-- Settles O23: one effect of PUSH; the new SP is SP less one, and the write is read back there. -/
theorem pushStoresBelowSp : Obligations.PushStoresBelowSp := by
  unfold Obligations.PushStoresBelowSp
  intro op1 s h hpc hwf hsp
  refine ⟨_, exec_push h hsp, ?_⟩
  simp only [advance_x, advance_mem, setSp_x, getElem_set_sp, sp_eq, true_and]
  exact ⟨sub_one_toNat hsp, Memory.read_write_same hwf _ _, fun a ha => Memory.read_write_other _ ha _,
    advance_pc_of_fetchInRange (s := { s.setSp _ with mem := _ }) hpc (by decide), rfl, rfl, rfl⟩

/-- Settles O25: one effect of CALL; the return address fits a byte and is read back at the new SP. -/
theorem callPushesReturnAddressAndJumps : Obligations.CallPushesReturnAddressAndJumps := by
  unfold Obligations.CallPushesReturnAddressAndJumps
  intro op1 s h hpc hwf hsp
  refine ⟨_, exec_call h hsp, ?_⟩
  simp only [setPc_x, setPc_mem, setPc_pc, setSp_x, getElem_set_sp, sp_eq, true_and]
  refine ⟨sub_one_toNat hsp, ?_, fun a ha => Memory.read_write_other _ ha _, zext9_toNat _, rfl, rfl, rfl⟩
  rw [Memory.read_write_same hwf, returnAddr_toNat s hpc]

/-- Settles O24: POP of another register moves SP up, POP R7 the popped byte. -/
theorem popLoadsFromSp : Obligations.PopLoadsFromSp := by
  unfold Obligations.PopLoadsFromSp
  intro op1 s h hpc
  constructor
  · intro h7 hsp
    refine ⟨_, exec_pop h h7 hsp, ?_⟩
    simp only [advance_x, setSp_x, setReg_x, getElem_set_sp, sp_eq, true_and]
    exact ⟨add_one_toNat hsp, rfl, advance_pc_of_fetchInRange (s := State.setSp _ _) hpc (by decide), rfl, rfl, rfl⟩
  · rintro rfl hv
    refine ⟨_, exec_pop_sp hv, ?_⟩
    simp only [advance_x, setSp_x, getElem_set_sp, sp_eq, true_and]
    exact ⟨add_one_toNat hv, rfl, advance_pc_of_fetchInRange (s := s.setSp _) hpc (by decide), rfl, rfl, rfl⟩

/-- Settles O26: one effect of RET, or the underflow fault. -/
theorem retPopsThePc : Obligations.RetPopsThePc := by
  unfold Obligations.RetPopsThePc
  intro s _
  refine ⟨rfl, fun hsp => ⟨_, exec_ret hsp, ?_⟩, fun hsp => exec_afterAddressFault ?_⟩
  · simp only [setSp_x, setPc_x, getElem_set_sp, sp_eq, true_and]
    exact ⟨zext9_toNat _, add_one_toNat hsp, rfl, rfl, rfl, rfl⟩
  · rw [handlerFault, hsp, underflowFault_top]

/-! ### Faults -/

/-- Settles O27: the first operand is checked before all else, the second operand of MULT and ADD next. -/
theorem registerIndexFaults : Obligations.RegisterIndexFaults := by
  unfold Obligations.RegisterIndexFaults
  intro op1 op2 s
  constructor
  · intro h i hi
    refine exec_afterAddressFault ?_
    simp only [List.mem_cons, List.not_mem_nil, or_false] at hi
    rcases hi with rfl | rfl | rfl | rfl | rfl | rfl | rfl <;> exact indexFault_invalid h _
  · intro h1 h2 i hi
    refine exec_afterAddressFault ?_
    simp only [List.mem_cons, List.not_mem_nil, or_false] at hi
    rcases hi with rfl | rfl <;> exact (indexFault_valid (by omega) _).trans (indexFault_invalid h2 none)

/-- PUSH and CALL leave SP or take it down by one. -/
theorem Effect.sp_of_push_or_call {op1 : Byte} {i : Instr} {s t : State} (h : Effect s i t)
    (hi : i = .push op1 ∨ i = .call op1) : t.x[7] = s.x[7] ∨ t.x[7].toNat + 1 = s.x[7].toNat := by
  cases h with
  | fault => exact .inl rfl
  | push _ _ hs | call _ _ hs =>
    refine .inr ?_
    simp only [advance_x, setPc_x, setSp_x, getElem_set_sp, sp_eq]
    exact sub_one_toNat hs
  | hlt | ldi | prn | mult | add | pop | ret => simp at hi

/-- POP of another register and RET leave SP or take it up by one. -/
theorem Effect.sp_of_pop_or_ret {op1 : Byte} {i : Instr} {s t : State} (h : Effect s i t)
    (hi : i = .pop op1 ∨ i = .ret) (h7 : i ≠ .pop 7) : t.x[7] = s.x[7] ∨ t.x[7].toNat = s.x[7].toNat + 1 := by
  cases h with
  | fault => exact .inl rfl
  | pop op _ hs =>
    have hop : op ≠ 7 := fun h => h7 (by rw [h])
    rw [setReg_sp, if_neg hop] at hs ⊢
    refine .inr ?_
    simp only [advance_x, setSp_x, getElem_set_sp]
    exact add_one_toNat hs
  | ret hs =>
    refine .inr ?_
    simp only [setSp_x, getElem_set_sp, sp_eq]
    exact add_one_toNat hs
  | hlt | ldi | prn | mult | add | push | call => simp at hi

/-- POP R7 leaves SP or sets it to the popped byte plus one. -/
theorem Effect.sp_of_pop_sp {s t : State} (h : Effect s (.pop 7) t) :
    t.x[7] = s.x[7] ∨ t.x[7].toNat = (s.mem.read s.x[7].toNat).toNat + 1 := by
  cases h with
  | fault => exact .inl rfl
  | pop _ _ hs =>
    rw [setReg_sp, if_pos rfl] at hs ⊢
    refine .inr ?_
    simp only [advance_x, setSp_x, getElem_set_sp]
    exact add_one_toNat hs

/-- Settles O28: the handlers' stack faults, and what a push or a pop can do to SP. -/
theorem stackBoundsFaults : Obligations.StackBoundsFaults := by
  unfold Obligations.StackBoundsFaults
  intro op1 s hop
  have hvalid : ∀ later, indexFault op1 later = later := indexFault_valid (by omega)
  refine ⟨fun hsp i hi => ?_, fun h7 hsp => ?_, fun h7 hv => ?_, fun hsp => ?_, fun t i hi h => ?_, fun t i hi h7 h => ?_,
    fun t h => (exec_effect h).sp_of_pop_sp⟩
  · refine exec_afterAddressFault ?_
    simp only [List.mem_cons, List.not_mem_nil, or_false] at hi
    obtain rfl | rfl := hi <;> rw [handlerFault, hvalid, hsp, overflowFault_zero]
  · refine exec_afterAddressFault ?_
    rw [handlerFault, hvalid, if_neg h7, hsp, underflowFault_top]
  · refine exec_afterAddressFault ?_
    rw [handlerFault, hvalid, if_pos h7, hv, underflowFault_top]
  · refine exec_afterAddressFault ?_
    rw [handlerFault, hsp, underflowFault_top]
  · exact (exec_effect h).sp_of_push_or_call (op1 := op1) (by simpa using hi)
  · exact (exec_effect h).sp_of_pop_or_ret (op1 := op1) (by simpa using hi) h7

/-! ### Frames -/

namespace Effect
variable {s t : State} {i : Instr}

/-- Only PUSH and CALL store (20_memory.md R34). -/
theorem mem_eq (h : Effect s i t) (hpush : ∀ op1, i ≠ .push op1) (hcall : ∀ op1, i ≠ .call op1) : t.mem = s.mem := by
  obtain hmem | ⟨⟨op1, hi | hi⟩, -⟩ := h.mem_cases
  · exact hmem
  · exact absurd hi (hpush op1)
  · exact absurd hi (hcall op1)

/-- No instruction changes a cell other than the one below SP (20_memory.md R34). -/
theorem mem_read_of_ne (h : Effect s i t) {a : Nat} (ha : a + 1 ≠ s.x[7].toNat) : t.mem.read a = s.mem.read a := by
  obtain hmem | ⟨-, hsp, v, hmem⟩ := h.mem_cases <;> rw [hmem]
  have hbelow : (s.sp - 1).toNat + 1 = s.x[7].toNat := sub_one_toNat hsp
  exact Memory.read_write_other v (by omega) s.mem

/-- Only PRN emits (10_state.md R19). -/
theorem out_eq (h : Effect s i t) (hprn : ∀ op1, i ≠ .prn op1) : t.out = s.out := by
  obtain hout | ⟨op1, -, hi, -⟩ := h.out_cases
  · exact hout
  · exact absurd hi (hprn op1)

end Effect

/-- Without a fault an instruction other than HLT keeps latch and record. -/
theorem report_eq_of_handlerFault_none {i : Instr} {s t : State} (h : exec i s = .next t) (hi : i ≠ .hlt)
    (hnone : handlerFault s i = none) : t.halted = s.halted ∧ t.fault = s.fault := by
  obtain ⟨hfault, hhalt⟩ := keepsReport_of_handlerFault_none hnone h
  exact ⟨hhalt hi, hfault⟩

/-- The address `spBelow` gives is SP less one. -/
theorem toNat_of_spBelow_ok {sp a : Byte} (h : spBelow sp = .ok a) : a.toNat + 1 = sp.toNat := by
  rw [spBelow_eq] at h
  split at h
  · cases h
  · rename_i hsp
    cases h
    exact sub_one_toNat hsp

/-- `spBelow` gives no address for 0 alone. -/
theorem eq_zero_of_spBelow_error {sp : Byte} {e : Raise} (h : spBelow sp = .error e) : sp = 0 := by
  rw [spBelow_eq] at h
  split at h
  · assumption
  · cases h

/-- Settles O32: LDI, MULT and ADD write at most their first register; latch and record go with the operand checks. -/
theorem frameRegisterWriters : Obligations.FrameRegisterWriters := by
  unfold Obligations.FrameRegisterWriters
  intro op1 op2 s t i hi h
  have heff := exec_effect h
  simp only [List.mem_cons, List.not_mem_nil, or_false] at hi
  obtain rfl | rfl | rfl := hi <;>
  refine ⟨fun r hr => heff.x_of_not_mayWrite hr, fun a => by rw [heff.mem_eq nofun nofun], heff.out_eq nofun,
    fun h1 h2 => report_eq_of_handlerFault_none h nofun ?_⟩
  · exact indexFault_valid (by omega) none
  · have h2' : op2.toNat ≤ 7 := h2.resolve_right nofun
    exact (indexFault_valid (by omega) _).trans (indexFault_valid (by omega) none)
  · have h2' : op2.toNat ≤ 7 := h2.resolve_right nofun
    exact (indexFault_valid (by omega) _).trans (indexFault_valid (by omega) none)

/-- Settles O33: HLT has one effect; PRN writes no register and no memory and appends at most. -/
theorem frameHltAndPrn : Obligations.FrameHltAndPrn := by
  unfold Obligations.FrameHltAndPrn
  intro op1 s t i hi h
  simp only [List.mem_cons, List.not_mem_nil, or_false] at hi
  obtain rfl | rfl := hi
  · cases h
    exact ⟨fun _ => rfl, fun _ => rfl, ⟨[], List.append_nil _⟩, fun _ => ⟨rfl, rfl, rfl⟩, nofun⟩
  · have heff := exec_effect h
    refine ⟨fun r => heff.x_of_not_mayWrite id, fun a => by rw [heff.mem_eq nofun nofun], ?_, nofun,
      fun _ h1 => report_eq_of_handlerFault_none h nofun (indexFault_valid (by omega) none)⟩
    obtain hout | ⟨_, _, -, hout⟩ := heff.out_cases <;> rw [hout]
    exact ⟨_, rfl⟩

/-- Settles O34: PUSH and CALL write SP alone and store below SP alone. -/
theorem frameStackWriters : Obligations.FrameStackWriters := by
  unfold Obligations.FrameStackWriters
  intro op1 s t i hi h
  have heff := exec_effect h
  have hok : ∀ a : Byte, spBelow s.sp = .ok a → ∀ c : Nat, c ≠ a.toNat → t.mem.read c = s.mem.read c := by
    intro a ha c hc
    have hbelow : a.toNat + 1 = s.x[7].toNat := toNat_of_spBelow_ok ha
    exact heff.mem_read_of_ne (by omega)
  have herr : ∀ e, spBelow s.sp = .error e → ∀ c : Nat, t.mem.read c = s.mem.read c := by
    intro e he c
    have hzero : s.x[7] = 0 := eq_zero_of_spBelow_error he
    exact heff.mem_read_of_ne (by rw [hzero]; exact Nat.succ_ne_zero c)
  simp only [List.mem_cons, List.not_mem_nil, or_false] at hi
  obtain rfl | rfl := hi <;>
  exact ⟨fun r hr => heff.x_of_not_mayWrite hr, hok, herr, heff.out_eq nofun, fun h1 hsp =>
    report_eq_of_handlerFault_none h nofun ((indexFault_valid (by omega) _).trans (overflowFault_of_ne hsp))⟩

/-- Settles O35: POP and RET load without storing; latch and record go with the underflow check. -/
theorem frameStackReaders : Obligations.FrameStackReaders := by
  unfold Obligations.FrameStackReaders
  intro op1 s t i hi h
  have heff := exec_effect h
  simp only [List.mem_cons, List.not_mem_nil, or_false] at hi
  obtain rfl | rfl := hi
  · refine ⟨fun r h7 hr => heff.x_of_not_mayWrite (not_or.mpr ⟨hr rfl, h7⟩), fun a => by rw [heff.mem_eq nofun nofun],
      heff.out_eq nofun, nofun, fun _ h1 hsp hv => report_eq_of_handlerFault_none h nofun ?_⟩
    refine (indexFault_valid (by omega) _).trans (underflowFault_of_ne ?_)
    split
    · exact hv ‹_›
    · exact hsp ‹_›
  · exact ⟨fun r h7 _ => heff.x_of_not_mayWrite h7, fun a => by rw [heff.mem_eq nofun nofun], heff.out_eq nofun,
      fun _ hsp => report_eq_of_handlerFault_none h nofun (underflowFault_of_ne hsp), nofun⟩

end Sys2Proof.Machine

/-! PROOFS. What any step can change (10_state.md R12, R19; 20_memory.md R34), and the stack round trips. -/

namespace Sys2Proof.Machine

/-- Settles O39: a fault keeps the output, and only PRN appends to it. -/
theorem outputGrowsByPrnAlone : Obligations.OutputGrowsByPrnAlone := by
  unfold Obligations.OutputGrowsByPrnAlone
  intro s t h
  obtain ⟨-, ⟨i, hfetch, heff⟩ | ⟨e, -, rfl⟩⟩ := step_effect h
  · obtain hout | ⟨op1, hop, rfl, hout⟩ := heff.out_cases
    · exact .inl hout
    · exact .inr ⟨op1, hop, hfetch, hout⟩
  · exact .inl rfl

/-- Settles O40: a changed cell was stored by PUSH or CALL, below SP. -/
theorem onlyPushAndCallStore : Obligations.OnlyPushAndCallStore := by
  unfold Obligations.OnlyPushAndCallStore
  intro s t a h hne
  obtain ⟨-, ⟨i, hfetch, heff⟩ | ⟨e, -, rfl⟩⟩ := step_effect h
  · have hopc : i.opcode = s.mem.read s.pc.toNat := opcode_of_decodeWindow (fetchInstr_ok hfetch).2
    refine ⟨?_, not_not.mp fun ha => hne (heff.mem_read_of_ne ha)⟩
    obtain hmem | ⟨⟨op1, rfl | rfl⟩, -⟩ := heff.mem_cases
    · exact absurd (by rw [hmem]) hne
    · exact .inl hopc.symm
    · exact .inr hopc.symm
  · exact absurd rfl hne

/-- The register that a decoded instruction may write, by its opcode (10_state.md R12's table). -/
theorem mayWrite_of_decodeWindow {opc op1 op2 : Byte} {i : Instr} {r : RegIndex}
    (h : decodeWindow opc op1 op2 = .ok i) (hr : MayWrite i r) :
    (opc ∈ ([0x82, 0xA2, 0xA0, 0x46] : List Byte) ∧ op1.toNat = r.val) ∨
    (opc ∈ ([0x45, 0x46, 0x50, 0x11] : List Byte) ∧ r = 7) := by
  obtain ⟨rfl, rfl⟩ | ⟨rfl, rfl⟩ | ⟨rfl, rfl⟩ | ⟨rfl, rfl⟩ | ⟨rfl, rfl⟩ | ⟨rfl, rfl⟩ | ⟨rfl, rfl⟩ | ⟨rfl, rfl⟩ | ⟨rfl, rfl⟩ :=
    decodeWindow_cases h
  · exact hr.elim
  · exact .inl ⟨by decide, hr.symm⟩
  · exact hr.elim
  · exact .inl ⟨by decide, hr.symm⟩
  · exact .inl ⟨by decide, hr.symm⟩
  · exact .inr ⟨by decide, hr⟩
  · exact hr.imp (fun hop => ⟨by decide, hop.symm⟩) fun h7 => ⟨by decide, h7⟩
  · exact .inr ⟨by decide, hr⟩
  · exact .inr ⟨by decide, hr⟩

/-- Settles O41: a changed register is one the decoded instruction may write. -/
theorem registersChangedByOpcode : Obligations.RegistersChangedByOpcode := by
  unfold Obligations.RegistersChangedByOpcode
  intro s t r h hne
  obtain ⟨-, ⟨i, hfetch, heff⟩ | ⟨e, -, rfl⟩⟩ := step_effect h
  · exact mayWrite_of_decodeWindow (fetchInstr_ok hfetch).2 (not_not.mp fun hr => hne (heff.x_of_not_mayWrite hr))
  · exact absurd rfl hne

/-! ### A stored byte is fetched (20_memory.md R43) -/

/-- A window in memory shows the byte of any cell it covers, in that cell's place. -/
theorem fetchWindow_of_read {u : State} {a : Nat} {v : Byte} (hpc : FetchInRange u) (h : u.mem.read a = v) :
    ∃ w, fetchWindow u = .ok w ∧ (u.pc.toNat = a → w.opc = v) ∧ (u.pc.toNat + 1 = a → w.op1 = v) ∧
      (u.pc.toNat + 2 = a → w.op2 = v) := by
  refine ⟨_, fetchWindow_inside u hpc, ?_, ?_, ?_⟩ <;>
  · rintro rfl
    exact h

/-- Settles O42: the cell at the new SP holds the stored byte, which a window that covers the cell shows. -/
theorem storeIsSeenByTheNextFetch : Obligations.StoreIsSeenByTheNextFetch := by
  unfold Obligations.StoreIsSeenByTheNextFetch
  intro op1 s h hpc hwf hsp i hi
  simp only [List.mem_cons, List.not_mem_nil, or_false] at hi
  obtain rfl | rfl := hi
  · obtain ⟨t, ht, -, -, hstored, -⟩ := pushStoresBelowSp op1 s h hpc hwf hsp
    exact ⟨t, _, ht, fun _ => hstored, nofun, fun u hu hcell => fetchWindow_of_read hu hcell⟩
  · obtain ⟨t, ht, -, -, hstored, -⟩ := callPushesReturnAddressAndJumps op1 s h hpc hwf hsp
    exact ⟨t, _, ht, nofun, fun _ => hstored, fun u hu hcell => fetchWindow_of_read hu hcell⟩

/-! ### Round trips (43_stack.md, 44_call_return.md) -/

/-- A push leaves room for a pop: SP less one is not 255. -/
theorem sub_one_ne_top {v : Byte} (h : v ≠ 0) : v - 1 ≠ 255 := by bv_omega

theorem ne_zero_of_one_le {v : Byte} (h : 1 ≤ v.toNat) : v ≠ 0 := by bv_omega

/-- A byte below 7 does not name R7. -/
theorem ne_seven_of_toNat_lt {b : Byte} (h : b.toNat < 7) : b ≠ 7 := by bv_omega

/-- POP of a register other than R7, with SP known. -/
theorem exec_pop_of_sp {s : State} {op1 a : Byte} (hsp : s.sp = a) (h : op1.toNat < 8) (h7 : op1 ≠ 7) (ha : a ≠ 255) :
    exec (.pop op1) s = .next (((s.setReg ⟨op1.toNat, h⟩ (s.mem.read a.toNat)).setSp (a + 1)).advance 2) := by
  subst hsp
  exact exec_pop h h7 ha

/-- RET, with SP known. -/
theorem exec_ret_of_sp {s : State} {a : Byte} (hsp : s.sp = a) (ha : a ≠ 255) :
    exec .ret s = .next ((s.setPc (zext9 (s.mem.read a.toNat))).setSp (a + 1)) := by
  subst hsp
  exact exec_ret ha

/-- Settles O43: POP reads at the SP that PUSH wrote, and takes it up again. -/
theorem pushThenPopRoundTrips : Obligations.PushThenPopRoundTrips := by
  unfold Obligations.PushThenPopRoundTrips
  intro r1 r2 s h1 h2 hwf hsp
  have hne : s.sp ≠ 0 := ne_zero_of_one_le hsp
  refine ⟨_, _, exec_push (by omega) hne,
    exec_pop_of_sp ?_ (by omega) (ne_seven_of_toNat_lt h2) (sub_one_ne_top hne), ?_, ?_⟩
  · exact sp_setSp s _
  · simp only [advance_x, advance_mem, setSp_x, setReg_x, Memory.read_write_same hwf, reg_eq]
    have h1' : 7 ≠ r1.toNat := by omega
    have h2' : 7 ≠ r2.toNat := by omega
    rw [Vector.getElem_set_ne _ _ h2', Vector.getElem_set_self]
    exact Vector.getElem_set_ne _ _ h1'
  · simp only [advance_x, setSp_x, getElem_set_sp, sub_add_cancel, sp_eq]

/-- Settles O44: RET pops the address that CALL pushed, and SP goes down and up again. -/
theorem callThenRetIsStackNeutral : Obligations.CallThenRetIsStackNeutral := by
  unfold Obligations.CallThenRetIsStackNeutral
  intro r s hr hpc hwf hsp
  have hne : s.sp ≠ 0 := ne_zero_of_one_le hsp
  refine ⟨_, _, exec_call hr hne, exec_ret_of_sp ?_ (sub_one_ne_top hne), ?_, ?_⟩
  · exact sp_setSp s _
  · simp only [setSp_x, setPc_x, Vector.set_set, sub_add_cancel, sp_eq]
    exact Vector.set_getElem_self _
  · rw [setSp_pc, setPc_pc, zext9_toNat, setPc_mem, Memory.read_write_same hwf, returnAddr_toNat s hpc]

end Sys2Proof.Machine
